-- ==== Sys2Proof/Word.lean ====
section
/-!
DEFINITION. The plain data the block handles: bytes, the typed operand ports of the command port, a command as it arrives
on that port, and the three header fields (00_scope.md R4, R5; 30_encoding.md R57, R59).
-/

namespace Sys2Proof

/-- A byte is 8 bits, bit 7 the most significant (00_scope.md R4, R5). -/
abbrev Byte := BitVec 8

/-- The three fields of a frame header with their fixed widths (00_scope.md R4, 30_encoding.md R50). -/
structure Header where
  len : BitVec 32
  fid : BitVec 64
  csum : BitVec 32
  deriving DecidableEq, Repr

/-- The typed parallel operand ports of the command port (30_encoding.md R57, R59): `b` of format B, `exp` of format W,
`len`, `fid`, `csum` of format H, `bytes` of format S, `n` of format T. -/
structure Ports where
  b : Byte
  exp : BitVec 32
  len : BitVec 32
  fid : BitVec 64
  csum : BitVec 32
  bytes : List Byte
  n : Nat
  deriving DecidableEq, Repr

/-- What the host presents to start a command: an 8-bit opcode and the operand ports (30_encoding.md R57). -/
structure Command where
  opcode : BitVec 8
  ports : Ports
  deriving DecidableEq, Repr

end Sys2Proof
end

