-- ==== Sys2Proof/Syntax.lean ====
section
/-!
DEFINITION. The nine commands, one constructor per row of spec/opcode_table.json, each with the operands its format names
(30_encoding.md R57, R58, R59; 00_scope.md R7).
-/

namespace Sys2Proof

/-- The commands of the block (30_encoding.md R58). The operands are typed, so an operand outside its port's range cannot
be expressed (R59). -/
inductive Instr where
  /-- `CRC_INIT`, format N (R75). -/
  | crcInit
  /-- `CRC_BYTE b`, format B (R76). -/
  | crcByte (b : Byte)
  /-- `CRC_READ`, format N (R77). -/
  | crcRead
  /-- `CRC_CHECK exp`, format W (R78). -/
  | crcCheck (exp : BitVec 32)
  /-- `HDR_ENC len, fid, csum`, format H (R90). -/
  | hdrEnc (len : BitVec 32) (fid : BitVec 64) (csum : BitVec 32)
  /-- `HDR_DEC bytes`, format S: a byte sequence of any length (R91). -/
  | hdrDec (bytes : List Byte)
  /-- `RSM_FILL`, format N (R101). -/
  | rsmFill
  /-- `RSM_HDR`, format N (R103). -/
  | rsmHdr
  /-- `RSM_TAKE n`, format T: `n` is a natural number (R104). -/
  | rsmTake (n : Nat)
  deriving DecidableEq, Repr

end Sys2Proof
end

