-- ==== Sys2Proof/WellFormed.lean ====
section
/-!
DEFINITION. Well-formedness: of a command's operands (30_encoding.md R59), of an opcode byte (R58, R61) and of a
configured capacity (00_scope.md R2).
-/

namespace Sys2Proof

/-- Every operand lies in the range of its port (30_encoding.md R59). The ports are typed, so this holds of every `Instr`
(`Laws.instr_wellFormed`); it is written out so that the ranges stand in the model. -/
def Instr.WellFormed (i : Instr) : Bool :=
  match i with
  | .crcInit => true
  | .crcByte b => b.toNat < 2 ^ 8
  | .crcRead => true
  | .crcCheck exp => exp.toNat < 2 ^ 32
  | .hdrEnc len fid csum => len.toNat < 2 ^ 32 && fid.toNat < 2 ^ 64 && csum.toNat < 2 ^ 32
  | .hdrDec _ => true
  | .rsmFill => true
  | .rsmHdr => true
  | .rsmTake _ => true

/-- The nine assigned opcodes of 30_encoding.md R58, in the table's order. -/
def assignedOpcodes : List (BitVec 8) :=
  [0x01#8, 0x02#8, 0x03#8, 0x04#8, 0x10#8, 0x11#8, 0x20#8, 0x21#8, 0x22#8]

/-- A command is well formed when its opcode is assigned; the other 247 opcodes are reserved (30_encoding.md R61). -/
def Command.WellFormed (c : Command) : Bool :=
  assignedOpcodes.contains c.opcode

/-- `CAP >= 16` always (00_scope.md R2). -/
def capacityWellFormed (cap : Nat) : Bool :=
  16 ≤ cap

end Sys2Proof
end

