-- ==== Sys2Proof/Decode.lean ====
section
/-!
DEFINITION. The command port's decoder, total on every opcode and rejecting reserved opcodes by name, and the encoder
written from the same table (30_encoding.md R57, R58, R59, R61).
-/

namespace Sys2Proof

/-- What the decoder answers: a command, or a reserved opcode by its number (30_encoding.md R61). -/
inductive Decoded where
  | instr (i : Instr)
  | reserved (opcode : BitVec 8)
  deriving DecidableEq, Repr

/-- The operand ports when nothing is driven on them: every port 0. A format reads only the ports it names
(30_encoding.md R59), so the value of an idle port is never read. -/
def Ports.idle : Ports :=
  { b := 0, exp := 0, len := 0, fid := 0, csum := 0, bytes := [], n := 0 }

/-- The opcode table of 30_encoding.md R58 read from opcode to command; the mask of every row is 0xFF. The operands come
from the ports the row's format names (R59). Every other opcode is reserved (R61). -/
def decode (c : Command) : Decoded :=
  match c.opcode.toNat with
  | 0x01 => .instr .crcInit
  | 0x02 => .instr (.crcByte c.ports.b)
  | 0x03 => .instr .crcRead
  | 0x04 => .instr (.crcCheck c.ports.exp)
  | 0x10 => .instr (.hdrEnc c.ports.len c.ports.fid c.ports.csum)
  | 0x11 => .instr (.hdrDec c.ports.bytes)
  | 0x20 => .instr .rsmFill
  | 0x21 => .instr .rsmHdr
  | 0x22 => .instr (.rsmTake c.ports.n)
  | _ => .reserved c.opcode

/-- The opcode byte of each command (30_encoding.md R58). -/
def opcodeOf (i : Instr) : BitVec 8 :=
  match i with
  | .crcInit => 0b00000001#8
  | .crcByte _ => 0b00000010#8
  | .crcRead => 0b00000011#8
  | .crcCheck _ => 0b00000100#8
  | .hdrEnc _ _ _ => 0b00010000#8
  | .hdrDec _ => 0b00010001#8
  | .rsmFill => 0b00100000#8
  | .rsmHdr => 0b00100001#8
  | .rsmTake _ => 0b00100010#8

/-- The operand ports of each command by its format (30_encoding.md R59); the ports it does not name are idle. -/
def portsOf (i : Instr) : Ports :=
  match i with
  | .crcInit => Ports.idle
  | .crcByte b => { Ports.idle with b := b }
  | .crcRead => Ports.idle
  | .crcCheck exp => { Ports.idle with exp := exp }
  | .hdrEnc len fid csum => { Ports.idle with len := len, fid := fid, csum := csum }
  | .hdrDec bytes => { Ports.idle with bytes := bytes }
  | .rsmFill => Ports.idle
  | .rsmHdr => Ports.idle
  | .rsmTake n => { Ports.idle with n := n }

/-- The encoder: what the host drives on the command port to issue `i` (30_encoding.md R57). -/
def encode (i : Instr) : Command :=
  { opcode := opcodeOf i, ports := portsOf i }

/-- The ports drive the operands of `i` on the ports its format names; the other ports may hold anything
(30_encoding.md R59). -/
def Ports.drive (p : Ports) (i : Instr) : Prop :=
  match i with
  | .crcInit => True
  | .crcByte b => p.b = b
  | .crcRead => True
  | .crcCheck exp => p.exp = exp
  | .hdrEnc len fid csum => p.len = len ∧ p.fid = fid ∧ p.csum = csum
  | .hdrDec bytes => p.bytes = bytes
  | .rsmFill => True
  | .rsmHdr => True
  | .rsmTake n => p.n = n

/-- The command that an opcode word of the table starts with every operand port idle. The table gives a row 8 bits, all of
them opcode; the operands travel on ports, so the table gives them no bits (30_encoding.md R57, log 13). -/
def commandOfWord (w : Nat) : Command :=
  { opcode := BitVec.ofNat 8 w, ports := Ports.idle }

/-- The host's question about one row of spec/opcode_table.json: the command this decoder reads from the row's word. -/
def decodeTableWord (nbits w : Nat) : Option Instr :=
  if nbits = 8 ∧ w < 256 then
    match decode (commandOfWord w) with
    | .instr i => some i
    | .reserved _ => none
  else none

end Sys2Proof
end

