-- ==== Sys2Proof/Machine/Checksum.lean ====
section
/-!
DEFINITION. The function `crc32` (40_crc32.md R70) and its step (R71).
-/

namespace Sys2Proof.Machine

/-- One shift of R71: `if c[0] = 1 then (c >> 1) XOR 0xEDB88320 else c >> 1`. -/
def crcShift (c : BitVec 32) : BitVec 32 :=
  if c.getLsbD 0 then (c >>> 1) ^^^ 0xEDB88320#32 else c >>> 1

/-- `k` shifts in a row. -/
def crcShifts : Nat → BitVec 32 → BitVec 32
  | 0, c => c
  | k + 1, c => crcShifts k (crcShift c)

/-- `crc_step(c, b)`: `c XOR zext_32(b)`, then eight shifts (40_crc32.md R71). -/
def crcStep (c : BitVec 32) (b : Byte) : BitVec 32 :=
  crcShifts 8 (c ^^^ b.setWidth 32)

/-- The initial value of the register (40_crc32.md R70, R75). -/
def crcInitial : BitVec 32 := 0xFFFFFFFF#32

/-- The final XOR (40_crc32.md R70, R77). -/
def crcFinish (c : BitVec 32) : BitVec 32 := c ^^^ 0xFFFFFFFF#32

/-- The register after the bytes of a sequence in increasing index (40_crc32.md R70, R73 (c)). -/
def crcFold (c : BitVec 32) : List Byte → BitVec 32
  | [] => c
  | b :: bs => crcFold (crcStep c b) bs

/-- `crc32(B)` (40_crc32.md R70). -/
def crc32 (bs : List Byte) : BitVec 32 := crcFinish (crcFold crcInitial bs)

end Sys2Proof.Machine
end

