-- ==== Sys2Proof/Config.lean ====
section
/-!
DEFINITION. The configuration of an instance and the free values: constants without a body, so no proof can see what they
are (00_scope.md R2; 92_eei_decisions.md "Open parameters, collected").
-/

namespace Sys2Proof

/-- `MAXBLK = CAP - 16`, the largest payload an instance can carry. The spec leaves the capacity an open parameter with no
formula and no bound (00_scope.md R2; log 1). -/
opaque Config.maxBlk : Nat

/-- `CAP`, the capacity in bytes of the reassembler buffer; `CAP >= 16` holds by construction (00_scope.md R2; log 1). -/
def Config.cap : Nat := Config.maxBlk + 16

/-- `CRC_RESET`: the register `crc` after a reset, one free value per reset (10_state.md R12; log 2). -/
opaque Config.freeCrc : Nat → BitVec 32

/-- `BUF_RESET` and `TAIL`: the free bytes that unspecified buffer bytes hold (10_state.md R17, 42_reassembler.md R104;
log 3, log 4). -/
opaque Config.freeByte : Nat → Byte

/-- The byte at offset `a` of the buffer after the `d`-th draw's `ShortRead`, for the offsets that R102 leaves unspecified:
`Config.freeShortReadByte d a` (42_reassembler.md R102; log 5). -/
opaque Config.freeShortReadByte : Nat → Nat → Byte

/-- `cursor` after a `ShortRead`, before it is brought into its legal range `0 .. CAP` (42_reassembler.md R102, 10_state.md
R15; log 5). -/
opaque Config.freeCursor : Nat → Nat

/-- `SRC.q` after a `ShortRead` (42_reassembler.md R102; log 5). -/
opaque Config.freeStream : Nat → List Byte

end Sys2Proof
end

