-- ==== Sys2Proof/Machine/State.lean ====
section
/-!
DEFINITION. The state of one instance (10_state.md R10), the inputs still to come and the responses given so far, the
reasons a step can stop, and the state after reset (10_state.md R12, R17, R18; 70_reset_and_hazards.md R142).
-/

namespace Sys2Proof.Machine

/-- The bytes of `buf` that are known, as cells of rising address. An address below `CAP` that is not listed has no byte in
the list: the buffer there holds a free value (`State.bufByte`; 10_state.md R14, R17; log 3). -/
abbrev Memory := List Host.Cell

/-- The canonical form: addresses strictly rising. An unlisted address has no byte in the list, so no entry can equal what
an unlisted address reads as, and equal memories are equal lists. -/
abbrev Memory.wf (m : Memory) : Prop := List.Pairwise (fun x y => x.1 < y.1) m

/-- The result ports of a response (30_encoding.md R59). -/
inductive Results where
  /-- No result: the format names none, or the status is not 0, where the ports hold any value, no host may read them, and
  the response records nothing of them (R60, R105, R124; 93_implementation_defined.md U5; log 12). -/
  | none
  /-- `value` of `CRC_READ` (R77). -/
  | value (v : BitVec 32)
  /-- `match` and `value` of `CRC_CHECK` (R78). -/
  | check (matched : Bool) (v : BitVec 32)
  /-- `hdr` of `HDR_ENC`: byte 0 first (R90). -/
  | hdr (bytes : List Byte)
  /-- `len`, `fid`, `csum` of `HDR_DEC` and `RSM_HDR` (R91, R103). -/
  | fields (h : Header)
  /-- `data` of `RSM_TAKE`: byte 0 first (R104). -/
  | data (bytes : List Byte)
  deriving DecidableEq, Repr

/-- A response: a 4-bit status and the result ports (30_encoding.md R60). -/
structure Response where
  status : BitVec 4
  results : Results
  deriving DecidableEq, Repr

/-- A move of the environment, the agent that owns the input stream (10_state.md R19, R20). -/
inductive EnvMove where
  /-- Append bytes to the back of `SRC.q`. -/
  | arrive (bytes : List Byte)
  /-- Set `SRC.closed`. -/
  | close
  deriving DecidableEq, Repr

/-- An input of the instance: a command or a reset by the host (60_exceptions.md R133), or a move of the environment. -/
inductive Event where
  | command (c : Command)
  | reset
  | env (m : EnvMove)
  deriving DecidableEq, Repr

/-- Why a step stops the model. None of these is a fault of the spec: those are responses, and the run goes on
(60_exceptions.md R120, R124). -/
inductive Fault where
  /-- Raised by `State.memRead` and `State.memWrite` for an offset past `CAP`, which does not exist. By 20_memory.md R31 no
  command does this while `cursor <= CAP`, which 10_state.md R15 says holds at all times. Safe (log 14). -/
  | bufOutOfRange
  /-- Raised by `State.envStep` when the inputs append bytes to a stream that was closed, which 10_state.md R20 says the
  environment never does. Safe (log 15). -/
  | arrivalAfterClose
  deriving DecidableEq, Repr

/-- Why an instruction has no meaning in the model. -/
inductive Refusal where
  /-- Raised by an arm of `exec` that has no meaning yet; no arm does. Safe. -/
  | notModelled (mnemonic : String)
  deriving DecidableEq, Repr

/-- One instance of the block (10_state.md R10, R25), with the inputs to come and the responses given. -/
structure State where
  /-- `CAP`, fixed when the instance is created (00_scope.md R2, 10_state.md R25; log 1). -/
  cap : Nat
  /-- Unit CRC: the running remainder, reflected and not yet final-XORed (10_state.md R11). -/
  crc : BitVec 32
  /-- Unit RSM: the known bytes of the buffer (10_state.md R14). -/
  buf : Memory
  /-- The model's own: base of the free values of unlisted buffer bytes (log 3, log 4). -/
  tape : Nat
  /-- Unit RSM: the offset at which the next fill starts writing (10_state.md R15). -/
  cursor : Nat
  /-- Unit RSM: the latch; 0 none, 1 MalformedHeader, 2 ShortRead, 3 BufferOverflow (10_state.md R16). -/
  fault : BitVec 2
  /-- Environment: bytes delivered and not yet consumed, oldest first (10_state.md R19). -/
  srcQ : List Byte
  /-- Environment: no byte will ever be appended again (10_state.md R20). -/
  srcClosed : Bool
  /-- The model's own: an accepted `RSM_FILL` is waiting (42_reassembler.md R101; log 6). -/
  waiting : Bool
  /-- The model's own: the inputs to come, first first (10_state.md R21; log 7). -/
  inbox : List Event
  /-- The model's own: the responses given, oldest first (30_encoding.md R60; log 8). -/
  outbox : List Response
  /-- The model's own: how many free values other than buffer bytes were drawn (log 18). -/
  draws : Nat
  deriving DecidableEq, Repr

/-- The machine right after reset: `cursor = 0`, `fault = 0`, `buf` and `crc` unspecified (70_reset_and_hazards.md R142),
`CAP` the configured value (10_state.md R25); the stream empty and open, and no input given yet (log 9, log 10). -/
def State.reset : State where
  cap := Config.cap
  crc := Config.freeCrc 0
  buf := []
  tape := 0
  cursor := 0
  fault := 0
  srcQ := []
  srcClosed := false
  waiting := false
  inbox := []
  outbox := []
  draws := 1

end Sys2Proof.Machine
end

