-- ==== Sys2Proof/Machine/Flags.lean ====
section
/-!
DEFINITION. Status and fault codes (60_exceptions.md R120) and the one-bit quantities that exist only in responses
(10_state.md R24).
-/

namespace Sys2Proof.Machine

/-- Code 0, `OK` (60_exceptions.md R120). -/
def statusOk : BitVec 4 := 0

/-- Code 1, `MalformedHeader` (60_exceptions.md R120). -/
def statusMalformedHeader : BitVec 4 := 1

/-- Code 7, `BAD_CMD` (60_exceptions.md R120). -/
def statusBadCmd : BitVec 4 := 7

/-- Latch value 1, `MalformedHeader` (10_state.md R16). -/
def faultMalformedHeader : BitVec 2 := 1

/-- Latch value 2, `ShortRead` (10_state.md R16). -/
def faultShortRead : BitVec 2 := 2

/-- Latch value 3, `BufferOverflow` (10_state.md R16). -/
def faultBufferOverflow : BitVec 2 := 3

/-- The status that reports a fault: the same code on four bits (60_exceptions.md R120). -/
def statusOfFault (f : BitVec 2) : BitVec 4 := f.setWidth 4

/-- The codes a response can carry; 4, 5, 6 and 8 to 15 are never produced (60_exceptions.md R120). -/
def producedStatuses : List (BitVec 4) := [0, 1, 2, 3, 7]

/-- `match` of `CRC_CHECK`: the computed and the expected checksum are equal (40_crc32.md R78). -/
def matchFlag (v exp : BitVec 32) : Bool := v == exp

/-- `silence` of `RSM_NEXT`: the frame's `compressed_length` is 0 (42_reassembler.md R107, R108). -/
def silenceFlag (len : BitVec 32) : Bool := len == 0

end Sys2Proof.Machine
end

