-- ==== Sys2Proof/Machine/Operands.lean ====
section
/-!
DEFINITION. Operand forms: big-endian conversion (00_scope.md R6), slices (R5), the header's byte layout (30_encoding.md
R50, R51) and the operand of `RSM_TAKE` (R62).
-/

namespace Sys2Proof.Machine

/-- `be_N(v)` for `N = 8 * k`: `k` bytes, most significant first (00_scope.md R6). -/
def be : Nat → Nat → List Byte
  | 0, _ => []
  | k + 1, v => BitVec.ofNat 8 (v / 256 ^ k) :: be k v

/-- `unbe(B)`: the sum of `B[i] * 256^(|B|-1-i)` (00_scope.md R6). -/
def unbe : List Byte → Nat
  | [] => 0
  | b :: bs => b.toNat * 256 ^ bs.length + unbe bs

/-- `B[a,b)`: the bytes with indices `a <= i < b` (00_scope.md R5). -/
def slice (bs : List Byte) (a b : Nat) : List Byte := (bs.drop a).take (b - a)

/-- `HDR_LEN = 16` (00_scope.md R3). -/
def hdrLen : Nat := 16

/-- The 16 header bytes `be_32(len) ++ be_64(fid) ++ be_32(csum)` (30_encoding.md R51, 41_header_codec.md R90). -/
def encodeHeader (h : Header) : List Byte :=
  be 4 h.len.toNat ++ be 8 h.fid.toNat ++ be 4 h.csum.toNat

/-- The fields of the first 16 bytes, or nothing when fewer than 16 are supplied (41_header_codec.md R91, R94). -/
def decodeHeader (bs : List Byte) : Option Header :=
  if bs.length < hdrLen then none
  else some
    { len := BitVec.ofNat 32 (unbe (slice bs 0 4))
      fid := BitVec.ofNat 64 (unbe (slice bs 4 12))
      csum := BitVec.ofNat 32 (unbe (slice bs 12 16)) }

/-- The operand of `RSM_TAKE` for a frame: `16 + len` in the natural numbers, never wrapped (30_encoding.md R62). -/
def takeOperand (len : BitVec 32) : Nat := hdrLen + len.toNat

end Sys2Proof.Machine
end

