-- ==== Sys2Proof/Machine/Ops.lean ====
section
/-!
DEFINITION. The named operations over the state: memory cells and the buffer (20_memory.md), the input stream (10_state.md
R19, R20), responses (30_encoding.md R60), the fault latch, which is the block's whole exception entry (60_exceptions.md
R124), and reset, the only way back from it (R130, 70_reset_and_hazards.md R140).
-/

namespace Sys2Proof.Machine

/-- The known byte at address `a`, if one is listed. -/
def Memory.read (m : Memory) (a : Nat) : Option Byte := List.lookup a m

/-- The cells that hold the bytes `bs` from address `a` on. -/
def Memory.cells (a : Nat) : List Byte → Memory
  | [] => []
  | b :: bs => (a, b) :: Memory.cells (a + 1) bs

/-- `m` with the bytes `bs` at `a, a+1, ...`; every other address as before. -/
def Memory.writeBytes (m : Memory) (a : Nat) (bs : List Byte) : Memory :=
  m.filter (fun c => c.1 < a) ++ Memory.cells a bs ++ m.filter (fun c => a + bs.length ≤ c.1)

/-- `m` moved down by `n`: the byte at `a + n` goes to `a`, and the bytes below `n` are dropped. -/
def Memory.shiftDown (m : Memory) (n : Nat) : Memory :=
  (m.filter (fun c => n ≤ c.1)).map (fun c => (c.1 - n, c.2))

/-- Buffer byte `a`: the known byte, or the free byte an unspecified place holds (10_state.md R17, 42_reassembler.md R104;
log 3, log 4). -/
def State.bufByte (s : State) (a : Nat) : Byte :=
  (s.buf.read a).getD (Config.freeByte (s.tape + a))

/-- `MemRead(a, n)`: the bytes `buf[a, a+n)`; needs `a + n <= CAP` (00_scope.md section 5, 20_memory.md R31). -/
def State.memRead (s : State) (a n : Nat) : Except Fault (List Byte) :=
  if a + n ≤ s.cap then .ok ((List.range n).map (fun i => s.bufByte (a + i)))
  else .error .bufOutOfRange

/-- `MemWrite(a, |B|, B)`: `buf[a+i] <- B[i]`; needs `a + |B| <= CAP` (00_scope.md section 5, 20_memory.md R31). -/
def State.memWrite (s : State) (a : Nat) (bs : List Byte) : Except Fault State :=
  if a + bs.length ≤ s.cap then .ok { s with buf := s.buf.writeBytes a bs }
  else .error .bufOutOfRange

/-- The compaction of `RSM_TAKE n`: `buf[n, CAP)` moves to the front, `buf[CAP-n, CAP)` becomes unspecified and
`cursor <- CAP - n` (42_reassembler.md R104). The base of the free bytes moves along with the bytes, so an unspecified byte
keeps its value when it moves and the new tail reads free bytes that no address had before (log 4). -/
def State.compact (s : State) (n : Nat) : State :=
  { s with buf := s.buf.shiftDown n, tape := s.tape + n, cursor := s.cap - n }

/-- `SrcAvail()`: how many bytes are pending (00_scope.md section 5). -/
def State.srcAvail (s : State) : Nat := s.srcQ.length

/-- How many bytes the next fill needs: `CAP - cursor` (10_state.md R15). -/
def State.fillNeed (s : State) : Nat := s.cap - s.cursor

/-- An `RSM_FILL` has no step here: nothing is latched, the buffer is not full, too few bytes are pending and the stream is
not closed (42_reassembler.md R101 "Blocking"). -/
def State.fillBlocked (s : State) : Bool :=
  s.fault == 0 && s.cursor != s.cap && s.srcAvail < s.fillNeed && !s.srcClosed

/-- `respond(status, results)`: a command's one response (30_encoding.md R60; log 8). -/
def State.respond (s : State) (status : BitVec 4) (results : Results) : State :=
  { s with outbox := s.outbox ++ [{ status := status, results := results }] }

/-- The latch takes a code only if it was 0 (10_state.md R16, 60_exceptions.md R124). -/
def State.latch (s : State) (code : BitVec 2) : State :=
  if s.fault = 0 then { s with fault := code } else s

/-- TAKING A FAULT, the block's whole "trap entry": the latch takes the code, the response carries it with no result;
nothing is saved, no mode changes, control goes nowhere (60_exceptions.md R124). -/
def State.raiseLatched (s : State) (code : BitVec 2) : State :=
  (s.latch code).respond (statusOfFault code) .none

/-- The answer of every `RSM_*` command while a fault is latched: `status = fault`, no result, no state change
(60_exceptions.md R124). -/
def State.respondLatched (s : State) : State :=
  s.respond (statusOfFault s.fault) .none

/-- The answer to a reserved opcode: `BAD_CMD`, no state change, nothing latched (30_encoding.md R61, 60_exceptions.md
R127). -/
def State.respondBadCmd (s : State) : State :=
  s.respond statusBadCmd .none

/-- The free bytes that `buf[cursor, CAP)` holds after a `ShortRead` (42_reassembler.md R102; log 5). -/
def State.shortReadBytes (s : State) : List Byte :=
  (List.range s.fillNeed).map (fun i => Config.freeShortReadByte s.draws (s.cursor + i))

/-- `ShortRead`: latched and reported; `buf[cursor, CAP)`, `cursor` (within `0 .. CAP`) and `SRC.q` are left unspecified,
`buf[0, cursor)` is unchanged (42_reassembler.md R101, R102; log 5). -/
def State.shortRead (s : State) : Except Fault State :=
  match s.memWrite s.cursor s.shortReadBytes with
  | .error f => .error f
  | .ok t =>
    .ok (State.raiseLatched
      { t with
        cursor := Config.freeCursor s.draws % (s.cap + 1)
        srcQ := Config.freeStream s.draws
        draws := s.draws + 1 }
      faultShortRead)

/-- Reset, the only return from a latched fault and the only way out of a blocked fill: `cursor <- 0`, `fault <- 0`, every
byte of `buf` and `crc` become unspecified; `CAP` and `SRC` are not changed, and there is no response
(70_reset_and_hazards.md R140, R141; 60_exceptions.md R130). The free bytes start past every one used before (log 17). -/
def State.resetBlock (s : State) : State :=
  { s with
    crc := Config.freeCrc s.draws
    buf := []
    tape := s.tape + s.cap
    cursor := 0
    fault := 0
    waiting := false
    draws := s.draws + 1 }

/-- A move of the environment: append to the back of `SRC.q`, or set `SRC.closed` (10_state.md R19, R20). Bytes after the
close are an input the environment never gives (R20; log 15). -/
def State.envStep (s : State) (m : EnvMove) : Host.Outcome State Fault Refusal :=
  match m with
  | .arrive bytes =>
    if s.srcClosed && !bytes.isEmpty then .fault .arrivalAfterClose
    else .next { s with srcQ := s.srcQ ++ bytes }
  | .close => .next { s with srcClosed := true }

/-- The first environment move among the inputs, with the other inputs left in order. The environment moves independently
of the host, so it may move while the host's next command cannot be accepted (20_memory.md R41; log 7). -/
def nextEnvMove : List Event → Option (EnvMove × List Event)
  | [] => none
  | .env m :: es => some (m, es)
  | .command c :: es => (nextEnvMove es).map (fun p => (p.1, .command c :: p.2))
  | .reset :: es => (nextEnvMove es).map (fun p => (p.1, .reset :: p.2))

/-- The input that can happen while an `RSM_FILL` waits: a reset by the host if that is the host's next action
(70_reset_and_hazards.md R140), else the environment's next move; never a command (00_scope.md R7; log 7). -/
def nextWhileWaiting : List Event → Option (Event × List Event)
  | .reset :: es => some (.reset, es)
  | es => (nextEnvMove es).map (fun p => (.env p.1, p.2))

end Sys2Proof.Machine
end

