-- ==== Sys2Proof/Machine/Crc.lean ====
section
/-!
DEFINITION. Unit CRC: the meanings of `CRC_INIT`, `CRC_BYTE`, `CRC_READ`, `CRC_CHECK` (40_crc32.md R75 to R78). None of
them reads or writes the latch or any other state of unit RSM.
-/

namespace Sys2Proof.Machine

/-- `CRC_INIT` (40_crc32.md R75). -/
def execCrcInit (s : State) : Host.Outcome State Fault Refusal :=
  .next (State.respond { s with crc := crcInitial } statusOk .none)

/-- `CRC_BYTE b` (40_crc32.md R76). -/
def execCrcByte (b : Byte) (s : State) : Host.Outcome State Fault Refusal :=
  .next (State.respond { s with crc := crcStep s.crc b } statusOk .none)

/-- `CRC_READ` (40_crc32.md R77). -/
def execCrcRead (s : State) : Host.Outcome State Fault Refusal :=
  .next (s.respond statusOk (.value (crcFinish s.crc)))

/-- `CRC_CHECK exp`: a mismatch is a diagnostic with status 0 (40_crc32.md R78, 60_exceptions.md R125). -/
def execCrcCheck (exp : BitVec 32) (s : State) : Host.Outcome State Fault Refusal :=
  .next (s.respond statusOk (.check (matchFlag (crcFinish s.crc) exp) (crcFinish s.crc)))

end Sys2Proof.Machine
end

