-- ==== Sys2Proof/Machine/Hdr.lean ====
section
/-!
DEFINITION. Unit HDR: the meanings of `HDR_ENC` and `HDR_DEC` (41_header_codec.md R90, R91), pure functions of their
operands (10_state.md R13).
-/

namespace Sys2Proof.Machine

/-- `HDR_ENC len, fid, csum` (41_header_codec.md R90). -/
def execHdrEnc (len : BitVec 32) (fid : BitVec 64) (csum : BitVec 32) (s : State) :
    Host.Outcome State Fault Refusal :=
  .next (s.respond statusOk (.hdr (encodeHeader { len := len, fid := fid, csum := csum })))

/-- `HDR_DEC bytes`: `MalformedHeader` below 16 bytes, returned and not latched; bytes from the 17th on are ignored
(41_header_codec.md R91, R93, R94). -/
def execHdrDec (bytes : List Byte) (s : State) : Host.Outcome State Fault Refusal :=
  match decodeHeader bytes with
  | none => .next (s.respond statusMalformedHeader .none)
  | some h => .next (s.respond statusOk (.fields h))

end Sys2Proof.Machine
end

