-- ==== Sys2Proof/Machine/Rsm.lean ====
section
/-!
DEFINITION. Unit RSM: the meanings of `RSM_FILL`, `RSM_HDR`, `RSM_TAKE` (42_reassembler.md R101, R103, R104). The
latched-fault test comes first in each (60_exceptions.md R128).
-/

namespace Sys2Proof.Machine

/-- `RSM_FILL` (42_reassembler.md R101). A blocked fill stays accepted and gives no response (log 6); "full" is literally
`cursor = CAP` (90_conflicts.md C2); enough pending bytes win over a closed stream. -/
def execRsmFill (s : State) : Host.Outcome State Fault Refusal :=
  if s.fillBlocked then .next { s with waiting := true }
  else if s.fault ≠ 0 then .next (State.respondLatched { s with waiting := false })
  else if s.cursor = s.cap then .next (State.respond { s with waiting := false } statusOk .none)
  else if s.fillNeed ≤ s.srcAvail then
    match s.memWrite s.cursor (s.srcQ.take s.fillNeed) with
    | .error f => .fault f
    | .ok t =>
      .next (State.respond
        { t with srcQ := s.srcQ.drop s.fillNeed, cursor := 0, waiting := false } statusOk .none)
  else
    match State.shortRead { s with waiting := false } with
    | .error f => .fault f
    | .ok t => .next t

/-- `RSM_HDR`: `HDR_DEC` of the first `min(16, CAP)` buffer bytes, consuming nothing; the `MalformedHeader` branch latches
and cannot be reached with `CAP >= 16` (42_reassembler.md R103). -/
def execRsmHdr (s : State) : Host.Outcome State Fault Refusal :=
  if s.fault ≠ 0 then .next s.respondLatched
  else
    match s.memRead 0 (min hdrLen s.cap) with
    | .error f => .fault f
    | .ok bs =>
      match decodeHeader bs with
      | none => .next (s.raiseLatched faultMalformedHeader)
      | some h => .next (s.respond statusOk (.fields h))

/-- `RSM_TAKE n`: the capacity check on natural numbers precedes every effect (42_reassembler.md R104, R105). -/
def execRsmTake (n : Nat) (s : State) : Host.Outcome State Fault Refusal :=
  if s.fault ≠ 0 then .next s.respondLatched
  else if s.cap < n then .next (s.raiseLatched faultBufferOverflow)
  else
    match s.memRead 0 n with
    | .error f => .fault f
    | .ok bs => .next ((s.compact n).respond statusOk (.data bs))

end Sys2Proof.Machine
end

