-- ==== Sys2Proof/Machine/Dispatch.lean ====
section
/-!
DEFINITION. One arm per command (spec/opcode_table.json), each one call of its meaning.
-/

namespace Sys2Proof.Machine

def exec (i : Instr) (s : State) : Host.Outcome State Fault Refusal :=
  match i with
  | .crcInit => Sys2Proof.Machine.execCrcInit s
  | .crcByte b => Sys2Proof.Machine.execCrcByte b s
  | .crcRead => Sys2Proof.Machine.execCrcRead s
  | .crcCheck exp => Sys2Proof.Machine.execCrcCheck exp s
  | .hdrEnc len fid csum => Sys2Proof.Machine.execHdrEnc len fid csum s
  | .hdrDec bytes => Sys2Proof.Machine.execHdrDec bytes s
  | .rsmFill => Sys2Proof.Machine.execRsmFill s
  | .rsmHdr => Sys2Proof.Machine.execRsmHdr s
  | .rsmTake n => Sys2Proof.Machine.execRsmTake n s

end Sys2Proof.Machine
end

