-- ==== Sys2Proof/Machine/Issue.lean ====
section
/-!
DEFINITION. How inputs reach the block: a command is decoded and executed whole (00_scope.md R7), a reset takes effect, the
environment moves; and what happens while an `RSM_FILL` waits (42_reassembler.md R101, 70_reset_and_hazards.md R140).
-/

namespace Sys2Proof.Machine

/-- A command on the port: executed if its opcode is assigned, answered `BAD_CMD` if it is reserved (30_encoding.md R58,
R61; log 11). -/
def issue (c : Command) (s : State) : Host.Outcome State Fault Refusal :=
  match decode c with
  | .instr i => exec i s
  | .reserved _ => .next s.respondBadCmd

/-- One input takes effect. -/
def applyEvent (e : Event) (s : State) : Host.Outcome State Fault Refusal :=
  match e with
  | .command c => issue c s
  | .reset => .next s.resetBlock
  | .env m => s.envStep m

/-- No command is executing: the next input happens; without one the instance waits for its first command
(70_reset_and_hazards.md R142; log 9). -/
def idleStep (s : State) : Host.Outcome State Fault Refusal :=
  match s.inbox with
  | [] => .next s
  | e :: rest => applyEvent e { s with inbox := rest }

/-- An `RSM_FILL` is waiting: it executes as soon as it is enabled; until then only a reset or a move of the environment can
happen, and without one the instance is stuck, with no time-out (42_reassembler.md R101; log 6, log 7). -/
def waitStep (s : State) : Host.Outcome State Fault Refusal :=
  if s.fillBlocked then
    match nextWhileWaiting s.inbox with
    | none => .next s
    | some (e, rest) => applyEvent e { s with inbox := rest }
  else exec .rsmFill s

/-- `s` with an opcode word of the table as its very next input, ready to be accepted (log 9, log 13). -/
def State.placeWord (s : State) (w : Nat) : State :=
  { s with inbox := .command (commandOfWord w) :: s.inbox, waiting := false }

end Sys2Proof.Machine
end

