-- ==== Sys2Proof/Machine/Step.lean ====
section
/-!
DEFINITION. One step of an instance among its host and its environment (00_scope.md R7, 20_memory.md R40, R41).
-/

namespace Sys2Proof.Machine

/-- One step: the waiting `RSM_FILL` if there is one, else the next input. -/
def step (s : State) : Host.Outcome State Fault Refusal :=
  if s.waiting then waitStep s else idleStep s

/-- `s` with the table's word as the command that the very next step executes (log 9, log 13). -/
def State.withFetchWord (s : State) (_nbits w : Nat) : State :=
  s.placeWord w

end Sys2Proof.Machine
end

