-- ==== Sys2Proof/Machine/Frame.lean ====
section
/-!
DEFINITION. The wire format of frames (30_encoding.md R50 to R55): a header followed by its payload, frames one after
another with nothing between them.
-/

namespace Sys2Proof.Machine

/-- One frame: the header fields and the payload (30_encoding.md R50). -/
structure Frame where
  header : Header
  payload : List Byte
  deriving DecidableEq, Repr

/-- `|P| = compressed_length` (30_encoding.md R50). -/
def frameWellFormed (f : Frame) : Bool := f.payload.length == f.header.len.toNat

/-- The bytes of a frame, `F = H ++ P` (30_encoding.md R50, R51). -/
def frameBytes (f : Frame) : List Byte := encodeHeader f.header ++ f.payload

/-- The total length of a frame, `16 + compressed_length` (30_encoding.md R50). -/
def frameLength (f : Frame) : Nat := takeOperand f.header.len

/-- The stream of a receiving instance: frames with nothing before, between or after them (30_encoding.md R53). -/
def streamOf : List Frame → List Byte
  | [] => []
  | f :: fs => frameBytes f ++ streamOf fs

/-- The frame at the front of a stream and what follows it, if the stream holds all of it: its own `compressed_length` says
where it ends (30_encoding.md R52). -/
def takeFrame (bs : List Byte) : Option (Frame × List Byte) :=
  match decodeHeader bs with
  | none => none
  | some h =>
    if bs.length < takeOperand h.len then none
    else some ({ header := h, payload := slice bs hdrLen (takeOperand h.len) }, bs.drop (takeOperand h.len))

/-- The first `k` frames of a stream and what follows them (30_encoding.md R52, R53). -/
def takeFrames : Nat → List Byte → Option (List Frame × List Byte)
  | 0, bs => some ([], bs)
  | k + 1, bs =>
    match takeFrame bs with
    | none => none
    | some (f, rest) => (takeFrames k rest).map (fun p => (f :: p.1, p.2))

/-- A header no frame through a buffer of `cap` bytes may carry: `compressed_length > CAP - 16` (30_encoding.md R55). -/
def unrepresentable (cap : Nat) (len : BitVec 32) : Bool := cap - hdrLen < len.toNat

/-- The reserved silence marker: `compressed_length = 0`, so the frame is exactly its 16 header bytes (30_encoding.md
R54). -/
def silenceMarker (fid : BitVec 64) (csum : BitVec 32) : Frame :=
  { header := { len := 0, fid := fid, csum := csum }, payload := [] }

end Sys2Proof.Machine
end

