-- ==== Sys2Proof/Machine/Pseudo.lean ====
section
/-!
DEFINITION. The host's side as far as the spec's numbered rules give it: running a sequence of commands (20_memory.md R40),
the pseudo-commands `CRC32`, `FRAME`, `RSM_NEXT` (30_encoding.md R64), the receive completion (42_reassembler.md R112) and
the frame-id step (41_header_codec.md R97). The block does not know any of these (log 19).
-/

namespace Sys2Proof.Machine

/-- Go on with the next state; a stop stays a stop. -/
def andThen {α β : Type} (o : Host.Outcome α Fault Refusal) (f : α → Host.Outcome β Fault Refusal) :
    Host.Outcome β Fault Refusal :=
  match o with
  | .next s => f s
  | .fault r => .fault r
  | .refused r => .refused r

/-- The host issues commands one after another, each when the one before has responded; a fill that waits ends the sequence
there (00_scope.md R7, 20_memory.md R40). -/
def execAll : List Instr → State → Host.Outcome State Fault Refusal
  | [], s => .next s
  | i :: is, s => andThen (exec i s) (fun t => if t.waiting then .next t else execAll is t)

/-- The response of the command that completed last. -/
def State.lastResponse (s : State) : Option Response := s.outbox.getLast?

/-- `CRC32 B`: `CRC_INIT`, one `CRC_BYTE` per byte, `CRC_READ` (40_crc32.md R79). -/
def crc32Commands (bs : List Byte) : List Instr :=
  .crcInit :: (bs.map .crcByte ++ [.crcRead])

/-- `FRAME fid, raw, compressed`: the checksum of the raw block, the header with the compressed length, header then
compressed bytes; nothing when the length does not fit the `len` port (41_header_codec.md R95). -/
def runFrame (fid : BitVec 64) (raw compressed : List Byte) (s : State) :
    Host.Outcome (State × Option (List Byte)) Fault Refusal :=
  if 2 ^ 32 ≤ compressed.length then .next (s, none)
  else
    andThen (execAll (crc32Commands raw) s) fun s1 =>
      match s1.lastResponse with
      | some { status := _, results := .value v } =>
        andThen (exec (.hdrEnc (BitVec.ofNat 32 compressed.length) fid v) s1) fun s2 =>
          match s2.lastResponse with
          | some { status := _, results := .hdr h } => .next (s2, some (h ++ compressed))
          | _ => .next (s2, none)
      | _ => .next (s1, none)

/-- One delivered frame: the result of `RSM_NEXT` (42_reassembler.md R107). -/
structure Delivered where
  header : Header
  payload : List Byte
  silence : Bool
  deriving DecidableEq, Repr

/-- What `RSM_NEXT` comes to: a frame, the status of the first failing command, or a fill that waits (42_reassembler.md
R107). -/
inductive NextResult where
  | frame (d : Delivered)
  | stopped (status : BitVec 4)
  | waiting
  deriving DecidableEq, Repr

/-- The take of `RSM_NEXT` and the strip of the 16 header bytes (42_reassembler.md R107). -/
def nextTake (h : Header) (s : State) : Host.Outcome (State × NextResult) Fault Refusal :=
  andThen (exec (.rsmTake (takeOperand h.len)) s) fun t =>
    match t.lastResponse with
    | some { status := _, results := .data bs } =>
      .next (t, .frame { header := h, payload := slice bs hdrLen (takeOperand h.len), silence := silenceFlag h.len })
    | some r => .next (t, .stopped r.status)
    | none => .next (t, .waiting)

/-- `RSM_NEXT`: fill, read the header, take `16 + len`, strip 16 bytes; it stops at the first failing command
(42_reassembler.md R107). -/
def rsmNext (s : State) : Host.Outcome (State × NextResult) Fault Refusal :=
  andThen (exec .rsmFill s) fun s1 =>
    if s1.waiting then .next (s1, .waiting)
    else
      match s1.lastResponse with
      | some { status := 0, results := _ } =>
        andThen (exec .rsmHdr s1) fun s2 =>
          match s2.lastResponse with
          | some { status := _, results := .fields h } => nextTake h s2
          | some r => .next (s2, .stopped r.status)
          | none => .next (s2, .waiting)
      | some r => .next (s1, .stopped r.status)
      | none => .next (s1, .waiting)

/-- `k` times `RSM_NEXT`: the state and the frames delivered, if every one delivers a frame (42_reassembler.md R109). -/
def rsmNexts : Nat → State → Option (State × List Delivered)
  | 0, s => some (s, [])
  | k + 1, s =>
    match rsmNext s with
    | .next (t, .frame d) => (rsmNexts k t).map (fun p => (p.1, d :: p.2))
    | _ => none

/-- What `RSM_NEXT` delivers of a frame on the wire (42_reassembler.md R107, R108). -/
def deliveredOf (f : Frame) : Delivered :=
  { header := f.header, payload := f.payload, silence := silenceFlag f.header.len }

/-- How the host completes the receive path: the commands it issues and the block it delivers. `decompress` is the codec's,
outside the block; `previous` is the block delivered before and `zeroed` an all-zero block (42_reassembler.md R112). -/
def receiveCompletion (decompress : List Byte → Option (List Byte)) (previous zeroed : List Byte) (d : Delivered) :
    List Instr × List Byte :=
  if d.silence then ([], zeroed)
  else
    match decompress d.payload with
    | none => ([], previous)
    | some raw => (crc32Commands raw ++ [.crcCheck d.header.csum], raw)

/-- The host's frame-id counter after a frame: `(fid + 1) mod 2^64` (41_header_codec.md R97). -/
def nextFrameId (fid : BitVec 64) : BitVec 64 := fid + 1

end Sys2Proof.Machine
end

