-- ==== Sys2Proof/Safety.lean ====
section
/-!
DEFINITION. What claims are stated in: the invariant of the machine, conforming sequences (70_reset_and_hazards.md R146),
the account of bytes read, consumed and buffered (20_memory.md R44), and where the window stands in the stream (R45,
42_reassembler.md R106).
-/

namespace Sys2Proof.Machine

/-- A response as 60_exceptions.md R120 and 30_encoding.md R60 allow it: a code that is produced, and no result unless the
command completed. -/
def Response.legal (r : Response) : Prop :=
  r.status ∈ producedStatuses ∧ (r.status ≠ statusOk → r.results = .none)

/-- The buffer is in canonical form and lists no offset from `CAP` on (10_state.md R14, 20_memory.md R31). -/
def State.BufOk (s : State) : Prop :=
  s.buf.wf ∧ ∀ c ∈ s.buf, c.1 < s.cap

/-- The invariant of every reachable state: `CAP >= 16` (00_scope.md R2), `0 <= cursor <= CAP` (10_state.md R15), the
buffer's form, `MalformedHeader` never latched (60_exceptions.md R121), a waiting fill only where a fill can wait
(42_reassembler.md R101), and every response legal (60_exceptions.md R120). -/
structure State.Inv (s : State) : Prop where
  cap_ge : 16 ≤ s.cap
  cursor_le : s.cursor ≤ s.cap
  buf_ok : s.BufOk
  fault_ne : s.fault ≠ faultMalformedHeader
  waiting_ok : s.waiting = true → s.fault = 0 ∧ s.cursor < s.cap
  outbox_ok : ∀ r ∈ s.outbox, r.legal

/-- The commands of unit CRC (30_encoding.md R58). -/
def isCrc (i : Instr) : Bool :=
  match i with
  | .crcInit => true
  | .crcByte _ => true
  | .crcRead => true
  | .crcCheck _ => true
  | .hdrEnc _ _ _ => false
  | .hdrDec _ => false
  | .rsmFill => false
  | .rsmHdr => false
  | .rsmTake _ => false

/-- The commands of unit RSM (30_encoding.md R58). -/
def isRsm (i : Instr) : Bool :=
  match i with
  | .crcInit => false
  | .crcByte _ => false
  | .crcRead => false
  | .crcCheck _ => false
  | .hdrEnc _ _ _ => false
  | .hdrDec _ => false
  | .rsmFill => true
  | .rsmHdr => true
  | .rsmTake _ => true

/-- One thing that happens in a run between resets: a command of the host completes, or the environment moves
(20_memory.md R40, R41). -/
inductive Act where
  | command (i : Instr)
  | env (m : EnvMove)
  deriving DecidableEq, Repr

/-- Where a command leaves the pattern `( RSM_FILL RSM_HDR* RSM_TAKE )*`: `full` says that a fill stands and no take has
followed it; the answer is the new `full`, or nothing where the command does not conform (70_reset_and_hazards.md R146). -/
def conformStep (full : Bool) (i : Instr) : Option Bool :=
  match i with
  | .crcInit => some full
  | .crcByte _ => some full
  | .crcRead => some full
  | .crcCheck _ => some full
  | .hdrEnc _ _ _ => some full
  | .hdrDec _ => some full
  | .rsmFill => if full then none else some true
  | .rsmHdr => if full then some true else none
  | .rsmTake _ => if full then some false else none

/-- Conforming sequences, with the moves of the environment anywhere between the commands: the answer is whether a fill
stands at the end, or nothing if the sequence does not conform (70_reset_and_hazards.md R146, 42_reassembler.md R106). -/
def conforms : Bool → List Act → Option Bool
  | full, [] => some full
  | full, .env _ :: as => conforms full as
  | full, .command i :: as =>
    match conformStep full i with
    | none => none
    | some full' => conforms full' as

/-- The bytes the environment appends in a run, in order (20_memory.md R37, R41). -/
def arrived : List Act → List Byte
  | [] => []
  | .command _ :: as => arrived as
  | .env (.arrive bs) :: as => bs ++ arrived as
  | .env .close :: as => arrived as

/-- The account of 20_memory.md R44: `read` bytes removed from `SRC` by all fills, `consumed` the sum of the operands of all
successful takes, `buffered` the stream bytes the buffer still holds. -/
structure Ledger where
  read : Nat
  consumed : Nat
  buffered : Nat
  deriving DecidableEq, Repr

/-- The account after a successful command from `s` to `t` (20_memory.md R44). -/
def ledgerAfter (i : Instr) (s t : State) (l : Ledger) : Ledger :=
  match i with
  | .crcInit => l
  | .crcByte _ => l
  | .crcRead => l
  | .crcCheck _ => l
  | .hdrEnc _ _ _ => l
  | .hdrDec _ => l
  | .rsmFill => { l with read := l.read + (s.srcQ.length - t.srcQ.length), buffered := s.cap }
  | .rsmHdr => l
  | .rsmTake n => { l with consumed := l.consumed + n, buffered := s.cap - n }

/-- Run a sequence of acts and keep the account; nothing when a command waits, stops or leaves a latched fault. -/
def runLedger : List Act → State → Ledger → Option (State × Ledger)
  | [], s, l => some (s, l)
  | .command i :: as, s, l =>
    match exec i s with
    | .next t => if t.waiting || t.fault != 0 then none else runLedger as t (ledgerAfter i s t l)
    | .fault _ => none
    | .refused _ => none
  | .env m :: as, s, l =>
    match s.envStep m with
    | .next t => runLedger as t l
    | .fault _ => none
    | .refused _ => none

/-- The first `k` buffer bytes are the stream bytes from position `p` on (20_memory.md R45). -/
def State.holds (s : State) (stream : List Byte) (p k : Nat) : Prop :=
  ∀ i, i < k → stream[p + i]? = some (s.bufByte i)

/-- WINDOW-FULL: nothing latched, all `CAP` buffer bytes are consecutive stream bytes from position `p` on, and what is
pending follows them (42_reassembler.md R106, 20_memory.md R45). -/
def State.windowFull (s : State) (stream : List Byte) (p : Nat) : Prop :=
  s.fault = 0 ∧ s.waiting = false ∧ s.holds stream p s.cap ∧ s.srcQ = stream.drop (p + s.cap)

/-- After a take, or after reset with `p = 0`: the `cursor` retained bytes are stream bytes from position `p` on, and what
is pending follows them (20_memory.md R45, R39). -/
def State.retained (s : State) (stream : List Byte) (p : Nat) : Prop :=
  s.fault = 0 ∧ s.waiting = false ∧ s.cursor ≤ s.cap ∧ s.holds stream p s.cursor ∧ s.srcQ = stream.drop (p + s.cursor)

end Sys2Proof.Machine
end

