-- ==== Sys2Proof/Certificates/Slice0/Obligations.lean ====
section
/-!
DEFINITION. The statements about the block, each from the spec's numbered rules; OBLIGATIONS.json lists them.
A response is written out as `{ status := ..., results := ... }`, and what a command leaves unchanged is what its record
update does not name. Where responses are recorded (`outbox`, log 8), how inputs arrive (`inbox`, log 7) and that a blocked
fill is held by `waiting` (log 6) are the model's representation, no rule of the spec.
-/

open Sys2Proof Sys2Proof.Machine

/-! ### Unit CRC -/

/-- R75: `CRC_INIT` sets the register to all ones in every state, also with a latched fault, and changes nothing else. -/
def Obligations.CrcInitSetsRegister : Prop :=
  ∀ s : State, exec .crcInit s = .next { s with
    crc := 0xFFFFFFFF#32
    outbox := s.outbox ++ [{ status := 0, results := .none }] }

/-- R76 with R71 written out: `CRC_BYTE b` XORs the byte in and applies eight shift steps. -/
def Obligations.CrcByteFoldsOneByte : Prop :=
  ∀ (b : Byte) (s : State), exec (.crcByte b) s = .next { s with
    crc := (fun c : BitVec 32 => if c.getLsbD 0 then (c >>> 1) ^^^ 0xEDB88320#32 else c >>> 1)^[8]
      (s.crc ^^^ b.setWidth 32)
    outbox := s.outbox ++ [{ status := 0, results := .none }] }

/-- R77: `CRC_READ` returns the register XOR all ones and does not change it. -/
def Obligations.CrcReadGivesFinishedRegister : Prop :=
  ∀ s : State, exec .crcRead s = .next { s with
    outbox := s.outbox ++ [{ status := 0, results := .value (s.crc ^^^ 0xFFFFFFFF#32) }] }

/-- R78, R125: `CRC_CHECK exp` answers status 0, whether the values match, and the value; it changes and latches nothing. -/
def Obligations.CrcCheckReportsMatchOnly : Prop :=
  ∀ (exp : BitVec 32) (s : State), exec (.crcCheck exp) s = .next { s with
    outbox := s.outbox ++ [Response.mk 0
      (.check (decide (s.crc ^^^ 0xFFFFFFFF#32 = exp)) (s.crc ^^^ 0xFFFFFFFF#32))] }

/-- R72: the listed table is `crc_step(0, i)`, and the table form is the step. -/
def Obligations.CrcStepEqualsTableForm : Prop :=
  crcTable.length = 256 ∧
  (∀ i : Nat, i < 256 → crcTable[i]? = some (crcStep 0 (BitVec.ofNat 8 i))) ∧
  ∀ (c : BitVec 32) (b : Byte),
    crcStep c b = (c >>> 8) ^^^ crcTable.getD ((c ^^^ b.setWidth 32) &&& 0xFF#32).toNat 0 ∧
    crcStepTable c b = crcStep c b

/-- R79, R70: the pseudo-command `CRC32 B` answers `crc32(B)` whatever the register held, one response per command, and
changes nothing but the register. The sequence is run by the model's `execAll` (log 19). -/
def Obligations.Crc32PseudoCommandGivesCrc32 : Prop :=
  ∀ (bs : List Byte) (s : State), s.waiting = false →
    ∃ t, execAll (crc32Commands bs) s = .next t ∧
      t.lastResponse = some { status := 0, results := .value (crc32 bs) } ∧
      t.crc ^^^ 0xFFFFFFFF#32 = crc32 bs ∧
      t.outbox.length = s.outbox.length + bs.length + 2 ∧
      t = { s with crc := t.crc, outbox := t.outbox }

/-- R11, R79, R152: after any sequence that runs to its end the register is what the `CRC_INIT` and `CRC_BYTE` commands
of it made of it, in their order; the commands between them do not matter. -/
def Obligations.CrcRegisterFollowsItsOwnCommands : Prop :=
  ∀ (is : List Instr) (s t : State), execAll is s = .next t → t.waiting = false →
    t.crc = is.foldl (fun c i =>
      match i with
      | .crcInit => 0xFFFFFFFF#32
      | .crcByte b => crcStep c b
      | _ => c) s.crc

/-- R73 (a), (b): the empty sequence and the published check value. -/
def Obligations.Crc32KnownValues : Prop :=
  crc32 [] = 0x00000000#32 ∧
  crc32 [0x31, 0x32, 0x33, 0x34, 0x35, 0x36, 0x37, 0x38, 0x39] = 0xCBF43926#32

/-- R73 (c): the checksum of `B ++ C` is obtained by continuing from the register left by `B`. -/
def Obligations.CrcIncremental : Prop :=
  ∀ (c : BitVec 32) (bs cs : List Byte), crcFold c (bs ++ cs) = crcFold (crcFold c bs) cs ∧
    crc32 (bs ++ cs) = crcFinish (crcFold (crcFinish (crc32 bs)) cs)

/-- R73 (d): appending the checksum, least significant byte first, always gives the residue `0x2144DF1C`. -/
def Obligations.CrcResidueConstant : Prop :=
  ∀ bs : List Byte,
    crc32 (bs ++ [(crc32 bs).extractLsb' 0 8, (crc32 bs).extractLsb' 8 8,
      (crc32 bs).extractLsb' 16 8, (crc32 bs).extractLsb' 24 8]) = 0x2144DF1C#32

/-- R73 (e): two sequences of the same length that differ in exactly one byte have different checksums. -/
def Obligations.CrcSingleByteSensitive : Prop :=
  ∀ (bs cs : List Byte) (x y : Byte), x ≠ y → crc32 (bs ++ x :: cs) ≠ crc32 (bs ++ y :: cs)

/-! ### Unit HDR -/

/-- R90: `HDR_ENC` answers the sixteen bytes of R90's list, with no check of any operand, and changes nothing. -/
def Obligations.HdrEncGivesSixteenBytes : Prop :=
  ∀ (len : BitVec 32) (fid : BitVec 64) (csum : BitVec 32) (s : State),
    exec (.hdrEnc len fid csum) s = .next { s with
      outbox := s.outbox ++ [Response.mk 0 (.hdr
        [len.extractLsb' 24 8, len.extractLsb' 16 8, len.extractLsb' 8 8, len.extractLsb' 0 8,
         fid.extractLsb' 56 8, fid.extractLsb' 48 8, fid.extractLsb' 40 8, fid.extractLsb' 32 8,
         fid.extractLsb' 24 8, fid.extractLsb' 16 8, fid.extractLsb' 8 8, fid.extractLsb' 0 8,
         csum.extractLsb' 24 8, csum.extractLsb' 16 8, csum.extractLsb' 8 8, csum.extractLsb' 0 8])] }

/-- R51: header bit `h[127 - 8j - (7 - m)]`, which is bit `m` of byte `j`, is that bit of `len ++ fid ++ csum`, and field
bit `k` stands at the byte and bit of R51's table. -/
def Obligations.HeaderBitLayout : Prop :=
  ∀ h : Header,
    encodeHeader h = be 4 h.len.toNat ++ be 8 h.fid.toNat ++ be 4 h.csum.toNat ∧
    (encodeHeader h).length = 16 ∧
    (∀ j m, j < 16 → m < 8 →
      ((encodeHeader h).getD j 0).getLsbD m = (h.len ++ h.fid ++ h.csum).getLsbD (8 * (15 - j) + m)) ∧
    (∀ k, k < 32 → ((encodeHeader h).getD (3 - k / 8) 0).getLsbD (k % 8) = h.len.getLsbD k) ∧
    (∀ k, k < 64 → ((encodeHeader h).getD (11 - k / 8) 0).getLsbD (k % 8) = h.fid.getLsbD k) ∧
    (∀ k, k < 32 → ((encodeHeader h).getD (15 - k / 8) 0).getLsbD (k % 8) = h.csum.getLsbD k)

/-- R91, R94: below 16 bytes `HDR_DEC` answers status 1 and nothing else changes; from 16 bytes on it answers the three
big-endian fields of the first 16 bytes and ignores the rest. -/
def Obligations.HdrDecReadsFields : Prop :=
  ∀ (bs : List Byte) (s : State),
    (bs.length < 16 → exec (.hdrDec bs) s = .next { s with
      outbox := s.outbox ++ [{ status := 1, results := .none }] }) ∧
    (16 ≤ bs.length → exec (.hdrDec bs) s = .next { s with
      outbox := s.outbox ++ [Response.mk 0 (.fields
        (Header.mk (BitVec.ofNat 32 (unbe (bs.take 4)))
          (BitVec.ofNat 64 (unbe ((bs.drop 4).take 8)))
          (BitVec.ofNat 32 (unbe ((bs.drop 12).take 4)))))] })

/-- R92: the two commands are mutually inverse between triples and 16-byte sequences. -/
def Obligations.HeaderEncodeDecodeInverse : Prop :=
  (∀ (len : BitVec 32) (fid : BitVec 64) (csum : BitVec 32) (s : State), ∃ hdr : List Byte,
    hdr.length = 16 ∧
    exec (.hdrEnc len fid csum) s = .next { s with
      outbox := s.outbox ++ [{ status := 0, results := .hdr hdr }] } ∧
    ∀ u : State, exec (.hdrDec hdr) u = .next { u with
      outbox := u.outbox ++ [{ status := 0, results := .fields { len := len, fid := fid, csum := csum } }] }) ∧
  (∀ (bs : List Byte) (s : State), bs.length = 16 → ∃ h : Header,
    exec (.hdrDec bs) s = .next { s with
      outbox := s.outbox ++ [{ status := 0, results := .fields h }] } ∧
    ∀ u : State, exec (.hdrEnc h.len h.fid h.csum) u = .next { u with
      outbox := u.outbox ++ [{ status := 0, results := .hdr bs }] })

/-- R6: `be_N` has `N/8` bytes, byte `i` is `v[N-1-8i : N-8-8i]`, `unbe` is the weighted sum, and the two are inverse. -/
def Obligations.BigEndianInverse : Prop :=
  (∀ k v : Nat, v < 256 ^ k →
    (be k v).length = k ∧ unbe (be k v) = v ∧
    ∀ i, i < k → (be k v)[i]? = some (BitVec.ofNat 8 (v / 2 ^ (8 * k - 8 - 8 * i)))) ∧
  ∀ bs : List Byte, be bs.length (unbe bs) = bs ∧
    unbe bs = ((List.range bs.length).map (fun i => (bs.getD i 0).toNat * 256 ^ (bs.length - 1 - i))).sum

/-- R13: unit HDR holds no state: its commands answer the same whatever the state, and change no register of any unit. -/
def Obligations.HdrCommandsArePure : Prop :=
  ∀ i : Instr, isCrc i = false → isRsm i = false →
    ∃ r : Response, ∀ s : State, exec i s = .next { s with outbox := s.outbox ++ [r] }

/-! ### Unit RSM: the commands -/

/-- R101: with at least `CAP - cursor` bytes pending, closed or not, a fill writes them at `cursor, cursor+1, ...` in
arrival order, sets `cursor` to 0, removes exactly them from `SRC`, and leaves `buf[0, cursor)` and the rest alone. -/
def Obligations.FillReadsMissingBytes : Prop :=
  ∀ s : State, s.fault = 0 → s.cursor < s.cap → s.cap - s.cursor ≤ s.srcQ.length →
    ∃ t, exec .rsmFill s = .next t ∧
      t = { s with
        buf := t.buf
        cursor := 0
        srcQ := s.srcQ.drop (s.cap - s.cursor)
        waiting := false
        outbox := s.outbox ++ [{ status := 0, results := .none }] } ∧
      (∀ i, i < s.cap - s.cursor → s.srcQ[i]? = some (t.bufByte (s.cursor + i))) ∧
      ∀ a, ¬ (s.cursor ≤ a ∧ a < s.cap) → t.bufByte a = s.bufByte a

/-- R101 (a), C2: with `cursor = CAP` a fill answers 0 and touches nothing, even if the stream is closed and empty. -/
def Obligations.FillOnFullBufferIsNoop : Prop :=
  ∀ s : State, s.fault = 0 → s.cursor = s.cap →
    exec .rsmFill s = .next { s with
      waiting := false
      outbox := s.outbox ++ [{ status := 0, results := .none }] }

/-- R101, R102, R122: with fewer bytes pending than needed on a closed stream a fill latches and answers 2; below the old
cursor the buffer is unchanged, the cursor stays in its range, and unit CRC, `CAP` and the closed flag are untouched. What
the spec leaves unspecified holds free values of the model (log 5). -/
def Obligations.FillShortReadLatches : Prop :=
  ∀ s : State, s.fault = 0 → s.cursor < s.cap → s.srcQ.length < s.cap - s.cursor → s.srcClosed = true →
    ∃ t, exec .rsmFill s = .next t ∧
      t = { s with
        buf := t.buf
        cursor := t.cursor
        srcQ := t.srcQ
        draws := t.draws
        fault := 2
        waiting := false
        outbox := s.outbox ++ [{ status := 2, results := .none }] } ∧
      t.cursor ≤ s.cap ∧ ∀ a, ¬ (s.cursor ≤ a ∧ a < s.cap) → t.bufByte a = s.bufByte a

/-- R122: a fill on an unlatched reassembler latches `ShortRead` exactly when it needs at least one byte, fewer are pending
than it needs, and the stream is closed. -/
def Obligations.ShortReadExactlyWhenStarvedAndClosed : Prop :=
  ∀ s t : State, s.fault = 0 → s.cursor ≤ s.cap → exec .rsmFill s = .next t →
    (t.fault = 2 ↔ s.cursor < s.cap ∧ s.srcQ.length < s.cap - s.cursor ∧ s.srcClosed = true)

/-- R101, U6: with too few bytes on an open stream a fill gives no response and changes nothing but that it now waits
(`waiting` is the model's own field, log 6). -/
def Obligations.FillWaitsForTheEnvironment : Prop :=
  ∀ s : State, s.fault = 0 → s.cursor < s.cap → s.srcQ.length < s.cap - s.cursor → s.srcClosed = false →
    exec .rsmFill s = .next { s with waiting := true }

/-- R103: `RSM_HDR` answers the fields of buffer bytes `[0,16)` and changes nothing; the `MalformedHeader` branch is the one
for `CAP < 16`; a latched fault is answered instead. -/
def Obligations.HdrPeeksWithoutConsuming : Prop :=
  ∀ s : State,
    (s.fault = 0 → 16 ≤ s.cap → exec .rsmHdr s = .next { s with
      outbox := s.outbox ++ [Response.mk 0 (.fields
        (Header.mk (BitVec.ofNat 32 (unbe ((List.range 4).map s.bufByte)))
          (BitVec.ofNat 64 (unbe ((List.range 8).map (fun i => s.bufByte (4 + i)))))
          (BitVec.ofNat 32 (unbe ((List.range 4).map (fun i => s.bufByte (12 + i)))))))] }) ∧
    (s.fault = 0 → s.cap < 16 → exec .rsmHdr s = .next { s with
      fault := 1
      outbox := s.outbox ++ [{ status := 1, results := .none }] }) ∧
    (s.fault ≠ 0 → exec .rsmHdr s = .next { s with
      outbox := s.outbox ++ [{ status := s.fault.setWidth 4, results := .none }] })

/-- R104: `RSM_TAKE n` with `n <= CAP` returns `buf[0,n)`, moves `buf[n,CAP)` to the front and sets `cursor` to `CAP - n`
(nothing is said of the tail); with `n > CAP` it latches and answers 3 and changes nothing else; a latched fault is
answered instead. -/
def Obligations.TakeReturnsAndCompacts : Prop :=
  ∀ (n : Nat) (s : State),
    (s.fault = 0 → n ≤ s.cap → ∃ t, exec (.rsmTake n) s = .next t ∧
      t = { s with
        buf := t.buf
        tape := t.tape
        cursor := s.cap - n
        outbox := s.outbox ++ [{ status := 0, results := .data ((List.range n).map s.bufByte) }] } ∧
      ∀ a, a < s.cap - n → t.bufByte a = s.bufByte (n + a)) ∧
    (s.fault = 0 → s.cap < n → exec (.rsmTake n) s = .next { s with
      fault := 3
      outbox := s.outbox ++ [{ status := 3, results := .none }] }) ∧
    (s.fault ≠ 0 → exec (.rsmTake n) s = .next { s with
      outbox := s.outbox ++ [{ status := s.fault.setWidth 4, results := .none }] })

/-- R105, R62: the operand `16 + len` does not wrap, exceeds `CAP` exactly when `len > CAP - 16`, and then the take is
rejected before every effect. -/
def Obligations.TakeRejectsUnrepresentableFrame : Prop :=
  ∀ (len : BitVec 32) (s : State), 16 ≤ s.cap → s.fault = 0 →
    takeOperand len = 16 + len.toNat ∧
    (s.cap < takeOperand len ↔ s.cap - 16 < len.toNat) ∧
    (s.cap - 16 < len.toNat → exec (.rsmTake (takeOperand len)) s = .next { s with
      fault := 3
      outbox := s.outbox ++ [{ status := 3, results := .none }] })

/-! ### The latch -/

/-- R124, R128: while a fault is latched every `RSM_*` command answers it with no result and changes no state, whatever its
operand, the cursor or the stream. -/
def Obligations.LatchedFaultAnswersRsmCommands : Prop :=
  ∀ (i : Instr) (s : State), isRsm i = true → s.fault ≠ 0 → s.waiting = false →
    exec i s = .next { s with
      outbox := s.outbox ++ [{ status := s.fault.setWidth 4, results := .none }] }

/-- R16: the latch is written only when it is 0 and only by an `RSM_*` command that raises a fault, which answers the code;
once non-zero no command changes it, and every `RSM_*` command answers it and changes no state; the commands of units CRC
and HDR neither read nor write it. -/
def Obligations.FaultWrittenOnceByRsmOnly : Prop :=
  ∀ (i : Instr) (s t : State), exec i s = .next t →
    (t.fault ≠ s.fault → s.fault = 0 ∧
      t.outbox = s.outbox ++ [{ status := t.fault.setWidth 4, results := .none }] ∧
      ((i = .rsmHdr ∧ t.fault = 1) ∨ (i = .rsmFill ∧ t.fault = 2) ∨ ((∃ n, i = .rsmTake n) ∧ t.fault = 3))) ∧
    (s.fault ≠ 0 → t.fault = s.fault) ∧
    (s.fault ≠ 0 → isRsm i = true → t = { s with
      waiting := t.waiting
      outbox := s.outbox ++ [{ status := s.fault.setWidth 4, results := .none }] }) ∧
    (isRsm i = false → t.fault = s.fault ∧
      ∀ f : BitVec 2, exec i { s with fault := f } = .next { t with fault := f })

/-- R128: the latch is tested first; otherwise a fill can report only `ShortRead`, a take only `BufferOverflow`, `HDR_DEC`
only `MalformedHeader`, and the other commands no fault (with `CAP >= 16`); a reserved opcode reports 7 whatever is
latched. -/
def Obligations.FaultsEachCommandCanReport : Prop :=
  (∀ (i : Instr) (s t : State) (r : Response), 16 ≤ s.cap → exec i s = .next t → t.outbox = s.outbox ++ [r] →
    (isRsm i = true → s.fault ≠ 0 → r.status = s.fault.setWidth 4) ∧
    ((isRsm i = true → s.fault = 0) →
      match i with
      | .crcInit => r.status = 0
      | .crcByte _ => r.status = 0
      | .crcRead => r.status = 0
      | .crcCheck _ => r.status = 0
      | .hdrEnc _ _ _ => r.status = 0
      | .hdrDec _ => r.status = 0 ∨ r.status = 1
      | .rsmFill => r.status = 0 ∨ r.status = 2
      | .rsmHdr => r.status = 0
      | .rsmTake _ => r.status = 0 ∨ r.status = 3)) ∧
  ∀ (c : Command) (s : State), c.opcode ∉ assignedOpcodes →
    issue c s = .next { s with outbox := s.outbox ++ [{ status := 7, results := .none }] }

/-- R130, R140: a step that changes a latched fault is a reset. -/
def Obligations.OnlyResetClearsFault : Prop :=
  ∀ s t : State, step s = .next t → s.fault ≠ 0 → t.fault ≠ s.fault →
    t.fault = 0 ∧ t.cursor = 0 ∧ ∃ rest, s.inbox = .reset :: rest

/-! ### Frames and completion over all commands -/

/-- R11, R38: only `CRC_INIT` and `CRC_BYTE` write the register `crc`; the commands of units CRC and HDR leave the buffer,
the cursor, the latch, the stream and every other field as they were, and answer once. -/
def Obligations.CrcAndHdrCommandsFrame : Prop :=
  ∀ (i : Instr) (s t : State), exec i s = .next t →
    (i ≠ .crcInit → (∀ b, i ≠ .crcByte b) → t.crc = s.crc) ∧
    (isRsm i = false → ∃ r, t = { s with crc := t.crc, outbox := s.outbox ++ [r] })

/-- R38: what the `RSM_*` commands leave unchanged. All of them: `CAP`, `crc`, the closed flag, the inputs to come.
`RSM_HDR`: every buffer byte, the cursor and the stream. `RSM_FILL`: every buffer byte outside `[cursor, CAP)`.
`RSM_TAKE`: the stream. -/
def Obligations.RsmCommandsFrame : Prop :=
  ∀ s t : State,
    (∀ i, isRsm i = true → exec i s = .next t →
      t.cap = s.cap ∧ t.crc = s.crc ∧ t.srcClosed = s.srcClosed ∧ t.inbox = s.inbox) ∧
    (exec .rsmHdr s = .next t →
      t.cursor = s.cursor ∧ t.srcQ = s.srcQ ∧ t.draws = s.draws ∧ t.waiting = s.waiting ∧
      ∀ a, t.bufByte a = s.bufByte a) ∧
    (exec .rsmFill s = .next t →
      t.tape = s.tape ∧ ∀ a, ¬ (s.cursor ≤ a ∧ a < s.cap) → t.bufByte a = s.bufByte a) ∧
    (∀ n, exec (.rsmTake n) s = .next t →
      t.srcQ = s.srcQ ∧ t.draws = s.draws ∧ t.waiting = s.waiting)

/-- R38, R41: no command but `RSM_FILL` touches the stream, and a fill removes nothing, or exactly `CAP - cursor` bytes from
the front, except that a fill that latches `ShortRead` may leave anything in `SRC.q` (R102; the model's free list, log 5). -/
def Obligations.OnlyFillConsumesTheStream : Prop :=
  ∀ (i : Instr) (s t : State), exec i s = .next t →
    (i ≠ .rsmFill → t.srcQ = s.srcQ) ∧
    (t.srcQ = s.srcQ ∨ t.srcQ = s.srcQ.drop (s.cap - s.cursor) ∨ (s.fault = 0 ∧ t.fault = 2))

/-- R155, R60: for a cursor in its range every command completes with exactly one response, except a fill that waits; it
waits exactly when nothing is latched, bytes are missing and the stream is open (`waiting`: log 6). -/
def Obligations.EveryCommandCompletesOrFillWaits : Prop :=
  ∀ (i : Instr) (s : State), s.cursor ≤ s.cap → ∃ t, exec i s = .next t ∧
    ((i = .rsmFill ∧ s.fault = 0 ∧ s.cursor < s.cap ∧ s.srcQ.length < s.cap - s.cursor ∧ s.srcClosed = false ∧
        t = { s with waiting := true }) ∨
      (¬ (i = .rsmFill ∧ s.fault = 0 ∧ s.cursor < s.cap ∧ s.srcQ.length < s.cap - s.cursor ∧ s.srcClosed = false) ∧
        ∃ r : Response, t.outbox = s.outbox ++ [r]))

/-! ### The command port -/

/-- R61: a reserved opcode is answered 7, whatever the latch holds, with no other change; there are 247 of them. -/
def Obligations.ReservedOpcodesAnswerBadCmd : Prop :=
  ((List.range 256).filter (fun k => !assignedOpcodes.contains (BitVec.ofNat 8 k))).length = 247 ∧
  ∀ (c : Command) (rest : List Event) (s : State), c.opcode ∉ assignedOpcodes → s.waiting = false →
    s.inbox = .command c :: rest →
    step s = .next { s with
      inbox := rest
      outbox := s.outbox ++ [{ status := 7, results := .none }] }

/-- R7: an idle instance takes the next command whole: the step is `exec` of the decoded command at the state with that
command taken from the inputs (`inbox` and `waiting` are the model's: log 6, log 7). -/
def Obligations.StepRunsDecodedCommand : Prop :=
  ∀ (c : Command) (i : Instr) (rest : List Event) (s : State), s.waiting = false → s.inbox = .command c :: rest →
    decode c = .instr i → step s = exec i { s with inbox := rest }

/-- R58: the nine opcode bytes of the table, with the operands on the ports of their formats, and no other opcode is a
command: all eight bits select it. -/
def Obligations.OpcodeBytesDecode : Prop :=
  ∀ p : Ports,
    decode { opcode := 0b00000001, ports := p } = .instr .crcInit ∧
    decode { opcode := 0b00000010, ports := p } = .instr (.crcByte p.b) ∧
    decode { opcode := 0b00000011, ports := p } = .instr .crcRead ∧
    decode { opcode := 0b00000100, ports := p } = .instr (.crcCheck p.exp) ∧
    decode { opcode := 0b00010000, ports := p } = .instr (.hdrEnc p.len p.fid p.csum) ∧
    decode { opcode := 0b00010001, ports := p } = .instr (.hdrDec p.bytes) ∧
    decode { opcode := 0b00100000, ports := p } = .instr .rsmFill ∧
    decode { opcode := 0b00100001, ports := p } = .instr .rsmHdr ∧
    decode { opcode := 0b00100010, ports := p } = .instr (.rsmTake p.n) ∧
    ∀ o : BitVec 8, o ∉ assignedOpcodes → decode { opcode := o, ports := p } = .reserved o

/-- R58, R59, R61: encoding then decoding gives the command back, with every operand at every value; a word decodes to a
command exactly when it has the command's opcode and drives its operands; every other opcode is reserved. -/
def Obligations.CommandEncodeDecodeAgree : Prop :=
  (∀ i : Instr, i.WellFormed = true ∧ decode (encode i) = .instr i) ∧
  (∀ (c : Command) (i : Instr), decode c = .instr i ↔ c.opcode = (encode i).opcode ∧ c.ports.drive i) ∧
  (∀ c : Command, decode c = .reserved c.opcode ↔ c.opcode ∉ assignedOpcodes) ∧
  ∀ (c : Command) (o : BitVec 8), decode c = .reserved o → o = c.opcode

/-! ### Steps, reset, waiting, environment -/

/-- R2, R15, R16, R31, R101, R120, R121: every step from a state with the invariant leads to a state with the invariant.
Its clauses on the listed cells, on `waiting` and on `outbox` are about the model's representation (log 3, log 6, log 8). -/
def Obligations.StepKeepsInvariant : Prop :=
  ∀ s t : State, s.Inv → step s = .next t → t.Inv

/-- R142: the state after reset has the invariant; what `State.reset` holds beside the spec's values is the model's (log 2,
log 3, log 9, log 10). -/
def Obligations.ResetStateHasInvariant : Prop :=
  State.reset.Inv

/-- R18: `cursor` and `fault` are 0 after reset, in the state right after reset and after a reset in any state. -/
def Obligations.ResetStateValues : Prop :=
  State.reset.cursor = 0 ∧ State.reset.fault = 0 ∧ ∀ s : State, s.resetBlock.cursor = 0 ∧ s.resetBlock.fault = 0

/-- R140, R141: a reset, between commands or while a fill waits, sets `cursor` and `fault` to 0, abandons a waiting fill
with no response, and leaves `CAP` and `SRC` as they are; nothing is said of `crc` and `buf` (free values, log 17; the
form of inputs and waiting: log 6, log 7). -/
def Obligations.ResetEventEffect : Prop :=
  ∀ (s : State) (rest : List Event), s.inbox = .reset :: rest → (s.waiting = false ∨ s.fillBlocked = true) →
    ∃ t, step s = .next t ∧
      t = { s with
        inbox := rest, crc := t.crc, buf := t.buf, tape := t.tape, draws := t.draws
        cursor := 0, fault := 0, waiting := false }

/-- R37: the grouping of arriving bytes is invisible: after any grouping of arrivals the state is the one their
concatenation gives (arrivals are inputs of the model, log 7). -/
def Obligations.ChunkingInvisible : Prop :=
  ∀ (chunks : List (List Byte)) (rest : List Event) (s : State), s.waiting = false → s.srcClosed = false →
    s.inbox = chunks.map (fun bs => .env (.arrive bs)) ++ rest →
    Host.Core.run core chunks.length s = .next { s with inbox := rest, srcQ := s.srcQ ++ chunks.flatten }

/-- R101, U6: a blocked fill has no time-out: while only commands are to come, every step leaves the machine as it is
(the model's stutter, log 6, log 7). -/
def Obligations.WaitingFillHasNoTimeout : Prop :=
  ∀ s : State, s.waiting = true → s.fault = 0 → s.cursor < s.cap → s.srcQ.length < s.cap - s.cursor →
    s.srcClosed = false → (∀ e ∈ s.inbox, ∃ c, e = .command c) → step s = .next s

/-- R101, R155: once the environment has appended enough bytes a waiting fill completes at the next step with status 0
(log 6, log 7). -/
def Obligations.ArrivalLetsWaitingFillComplete : Prop :=
  ∀ (bs : List Byte) (rest : List Event) (s : State), s.waiting = true → s.fault = 0 → s.cursor < s.cap →
    s.srcQ.length < s.cap - s.cursor → s.srcClosed = false → s.inbox = .env (.arrive bs) :: rest →
    s.cap - s.cursor ≤ s.srcQ.length + bs.length →
    ∃ t u, step s = .next t ∧ step t = .next u ∧
      u = { s with
        inbox := rest
        buf := u.buf
        cursor := 0
        srcQ := (s.srcQ ++ bs).drop (s.cap - s.cursor)
        waiting := false
        outbox := s.outbox ++ [{ status := 0, results := .none }] } ∧
      ∀ i, i < s.cap - s.cursor → (s.srcQ ++ bs)[i]? = some (u.bufByte (s.cursor + i))

/-- R7: while a fill waits the instance accepts no command: a step gives no response and takes no command from the
inputs (log 6, log 7). -/
def Obligations.WaitingInstanceAcceptsNoCommand : Prop :=
  ∀ s t : State, s.waiting = true → s.fillBlocked = true → step s = .next t →
    t.outbox = s.outbox ∧
    t.inbox.filterMap (fun e => match e with
      | .command c => some c
      | .reset => none
      | .env _ => none) =
    s.inbox.filterMap (fun e => match e with
      | .command c => some c
      | .reset => none
      | .env _ => none)

/-- R41: a step that does not execute a fill takes nothing from the stream: pending bytes stay, and new ones go to the back. -/
def Obligations.PendingBytesStayUntilAFill : Prop :=
  ∀ s t : State, step s = .next t → s.waiting = false →
    (∀ c rest, s.inbox = .command c :: rest → decode c ≠ .instr .rsmFill) → ∃ new, t.srcQ = s.srcQ ++ new

/-- R20, R2: no step clears `SRC.closed` or changes `CAP`. -/
def Obligations.ClosedAndCapacityArePermanent : Prop :=
  ∀ s t : State, step s = .next t → (s.srcClosed = true → t.srcClosed = true) ∧ t.cap = s.cap

/-! ### The window and the demultiplexer -/

/-- R111: on a window-full buffer at position `p`, a take of `n`, a fill and a header read give the stream bytes
`[p, p+n)`, a window-full buffer at `p + n`, and the header at `p + n`. -/
def Obligations.TakeThenFillThenHeader : Prop :=
  ∀ (stream : List Byte) (p n : Nat) (s : State), 16 ≤ s.cap → s.windowFull stream p → n ≤ s.cap →
    p + n + s.cap ≤ stream.length →
    ∃ t u v h, exec (.rsmTake n) s = .next t ∧
      t.outbox = s.outbox ++ [{ status := 0, results := .data ((stream.drop p).take n) }] ∧
      exec .rsmFill t = .next u ∧ u.windowFull stream (p + n) ∧
      exec .rsmHdr u = .next v ∧ decodeHeader ((stream.drop (p + n)).take 16) = some h ∧
      v.outbox = u.outbox ++ [{ status := 0, results := .fields h }]

/-- R44: in every conforming run from a reset state, with the environment moving anywhere between the commands,
`consumed + buffered = read`. -/
def Obligations.ConservationForConformingRuns : Prop :=
  ∀ (acts : List Act) (full : Bool) (s t : State) (l : Ledger), s.fault = 0 → s.cursor = 0 → s.waiting = false →
    conforms false acts = some full →
    runLedger acts s { read := 0, consumed := 0, buffered := 0 } = some (t, l) →
    l.consumed + l.buffered = l.read

/-- R45: in a conforming run without fault the buffer holds the stream bytes from the sum of the takes on: all `CAP` of them
after a fill, and the fills have then consumed that sum plus `CAP`; the retained ones after a take. -/
def Obligations.WindowPosition : Prop :=
  ∀ (acts : List Act) (full : Bool) (s t : State) (l : Ledger), s.fault = 0 → s.cursor = 0 → s.waiting = false →
    conforms false acts = some full →
    runLedger acts s { read := 0, consumed := 0, buffered := 0 } = some (t, l) →
    (full = true → t.windowFull (s.srcQ ++ arrived acts) l.consumed ∧ l.read = l.consumed + t.cap) ∧
    (full = false → t.retained (s.srcQ ++ arrived acts) l.consumed)

/-- R109: from a reset state with frames on the stream, each short enough for the window, the `(j+1)`-th `RSM_NEXT`
delivers the `(j+1)`-th frame whenever the stream holds a window from that frame's first byte on; the frames come in order,
none skipped, none repeated. -/
def Obligations.DemuxDeliversFramesInOrder : Prop :=
  ∀ (fs : List Frame) (rest : List Byte) (j : Nat) (f : Frame) (s : State), 16 ≤ s.cap → s.fault = 0 →
    s.cursor = 0 → s.waiting = false → s.srcQ = streamOf fs ++ rest →
    (∀ g ∈ fs, frameWellFormed g = true ∧ g.header.len.toNat ≤ s.cap - 16) → fs[j]? = some f →
    (streamOf (fs.take j)).length + s.cap ≤ s.srcQ.length →
    ∃ t, rsmNexts (j + 1) s = some (t, (fs.take (j + 1)).map deliveredOf) ∧
      t.cursor = s.cap - frameLength f ∧ t.retained s.srcQ (streamOf (fs.take (j + 1))).length

/-- R108, R54: a silence marker at the front is delivered with an empty payload and `silence = 1`, and its 16 bytes are
consumed. -/
def Obligations.SilenceMarkerDelivered : Prop :=
  ∀ (stream : List Byte) (p : Nat) (fid : BitVec 64) (csum : BitVec 32) (s : State), 16 ≤ s.cap →
    s.retained stream p → p + s.cap ≤ stream.length →
    (stream.drop p).take 16 = frameBytes (silenceMarker fid csum) →
    ∃ t, rsmNext s = .next (t, .frame
        { header := { len := 0, fid := fid, csum := csum }, payload := [], silence := true }) ∧
      t.cursor = s.cap - 16 ∧ t.retained stream (p + 16)

/-- R110: when the stream holds less than a window from the front on, the cycle waits on an open stream and ends in
`ShortRead` on a closed one, whatever complete frames the buffer holds. -/
def Obligations.FramesHeldBackAtStreamEnd : Prop :=
  ∀ (stream : List Byte) (p : Nat) (s : State), s.retained stream p → p + s.cursor ≤ stream.length →
    stream.length < p + s.cap →
    (s.srcClosed = false → rsmNext s = .next ({ s with waiting := true }, .waiting)) ∧
    (s.srcClosed = true → ∃ t, rsmNext s = .next (t, .stopped 2) ∧ t.fault = 2)

/-- R147: a fill directly after a fill reads `CAP` new bytes over the whole buffer, with no fault. -/
def Obligations.FillAfterFillLosesTheWindow : Prop :=
  ∀ s : State, s.fault = 0 → s.cursor < s.cap → s.cap - s.cursor + s.cap ≤ s.srcQ.length →
    ∃ t u, exec .rsmFill s = .next t ∧ exec .rsmFill t = .next u ∧ u.fault = 0 ∧ u.cursor = 0 ∧
      u.srcQ = s.srcQ.drop (s.cap - s.cursor + s.cap) ∧
      ∀ i, i < s.cap → s.srcQ[s.cap - s.cursor + i]? = some (u.bufByte i)

/-- R148: a take of `n2` directly after a take of `n1` (of 0 too, the harmless case) returns `n2` bytes, the first
`min(n2, CAP - n1)` of them the old bytes from `n1` on, and sets `cursor` to `CAP - n2`; the first `CAP - n1 - n2` buffer
bytes are then the old bytes from `n1 + n2` on. Nothing is said of the other bytes, which R148 and R104 leave unspecified. -/
def Obligations.TakeAfterTakeReturnsOldBytesAndSetsCursor : Prop :=
  ∀ (n1 n2 : Nat) (s : State), s.fault = 0 → n1 ≤ s.cap → n2 ≤ s.cap →
    ∃ t u d, exec (.rsmTake n1) s = .next t ∧ exec (.rsmTake n2) t = .next u ∧
      u.outbox = t.outbox ++ [{ status := 0, results := .data d }] ∧ d.length = n2 ∧
      (∀ i, i < min n2 (s.cap - n1) → d[i]? = some (s.bufByte (n1 + i))) ∧
      u.cursor = s.cap - n2 ∧ ∀ i, i < s.cap - n1 - n2 → u.bufByte i = s.bufByte (n1 + n2 + i)

/-! ### Wire format and the host's side -/

/-- R50, R52, R53: reading frames off a stream of frames gives those frames and what follows them. -/
def Obligations.FrameStreamDecodes : Prop :=
  ∀ (fs : List Frame) (rest : List Byte), (∀ f ∈ fs, frameWellFormed f = true) →
    takeFrames fs.length (streamOf fs ++ rest) = some (fs, rest)

/-- R95: `FRAME` gives the header of the compressed length, the id and the checksum of the raw block, then the compressed
bytes, and changes nothing but the register `crc`. -/
def Obligations.FramePseudoCommandBuildsFrame : Prop :=
  ∀ (fid : BitVec 64) (raw compressed : List Byte) (s : State), s.waiting = false → compressed.length < 2 ^ 32 →
    ∃ t, runFrame fid raw compressed s = .next (t, some (frameBytes
        { header := { len := BitVec.ofNat 32 compressed.length, fid := fid, csum := crc32 raw }
          payload := compressed })) ∧
      t = { s with crc := t.crc, outbox := t.outbox }

/-- R112: with `silence = 0` and a payload that decompresses, the host's commands end in the comparison of the block's
checksum with the header's, the block is delivered either way, and unit RSM is not touched. -/
def Obligations.ReceiveCompletionReportsChecksum : Prop :=
  ∀ (decompress : List Byte → Option (List Byte)) (previous zeroed raw : List Byte) (d : Delivered) (s : State),
    s.waiting = false → d.silence = false → decompress d.payload = some raw →
    (receiveCompletion decompress previous zeroed d).2 = raw ∧
    ∃ t, execAll (receiveCompletion decompress previous zeroed d).1 s = .next t ∧
      t.lastResponse = some { status := 0, results := .check (decide (crc32 raw = d.header.csum)) (crc32 raw) } ∧
      t = { s with crc := t.crc, outbox := t.outbox }

/-- R97: the host's frame-id counter advances by one modulo `2^64`; from its maximum it goes to 0. -/
def Obligations.FrameIdWrapsToZero : Prop :=
  ∀ fid : BitVec 64, (nextFrameId fid).toNat = (fid.toNat + 1) % 2 ^ 64 ∧
    (fid.toNat = 2 ^ 64 - 1 → nextFrameId fid = 0)
end

