-- ==== Sys2Proof/Laws/Crc.lean ====
section
/-!
SUPPORT. The checksum's algebra: the shift is linear over XOR and one to one, low zero bits are shifted out, and bytes fold
one after another (40_crc32.md R71, R72, R73).
-/

namespace Sys2Proof.Machine

@[simp] theorem crcFold_nil (c : BitVec 32) : crcFold c [] = c := rfl

@[simp] theorem crcFold_cons (c : BitVec 32) (b : Byte) (bs : List Byte) :
    crcFold c (b :: bs) = crcFold (crcStep c b) bs := rfl

/-- Incrementality of the register (40_crc32.md R73 (c)). -/
theorem crcFold_append_bytes (c : BitVec 32) (bs cs : List Byte) :
    crcFold c (bs ++ cs) = crcFold (crcFold c bs) cs := by
  induction bs generalizing c with
  | nil => rfl
  | cons b bs ih => exact ih _

/-- The final XOR undoes itself. -/
@[simp] theorem crcFinish_crcFinish (c : BitVec 32) : crcFinish (crcFinish c) = c := by
  simp [crcFinish]

/-- The shift is linear over XOR. -/
theorem crcShift_xor (a b : BitVec 32) : crcShift (a ^^^ b) = crcShift a ^^^ crcShift b := by
  have e : (a ^^^ b) >>> 1 = a >>> 1 ^^^ b >>> 1 := BitVec.ushiftRight_xor_distrib a b 1
  unfold crcShift
  rw [BitVec.getLsbD_xor, e]
  cases ha : a.getLsbD 0 <;> cases hb : b.getLsbD 0 <;> simp
  · rw [BitVec.xor_assoc]
  · rw [BitVec.xor_assoc, BitVec.xor_assoc, BitVec.xor_comm 0xEDB88320#32]
  · rw [BitVec.xor_assoc, ← BitVec.xor_assoc 0xEDB88320#32, BitVec.xor_comm 0xEDB88320#32, BitVec.xor_assoc,
      BitVec.xor_self, BitVec.xor_zero]

theorem crcShifts_xor (k : Nat) (a b : BitVec 32) : crcShifts k (a ^^^ b) = crcShifts k a ^^^ crcShifts k b := by
  induction k generalizing a b with
  | zero => rfl
  | succ k ih => rw [crcShifts, crcShift_xor, ih, crcShifts, crcShifts]

theorem crcShifts_add (j k : Nat) (c : BitVec 32) : crcShifts (j + k) c = crcShifts k (crcShifts j c) := by
  induction j generalizing c with
  | zero => simp [crcShifts]
  | succ j ih => rw [Nat.succ_add, crcShifts, ih, crcShifts]

@[simp] theorem crcShifts_zero_word (k : Nat) : crcShifts k 0#32 = 0#32 := by
  induction k with
  | zero => rfl
  | succ k ih =>
    have e : crcShift 0#32 = 0#32 := by decide
    rw [crcShifts, e, ih]

/-- A word whose low `k` bits are zero is shifted down by `k` shifts. -/
theorem crcShifts_of_low_zero (k : Nat) (c : BitVec 32) (h : ∀ i, i < k → c.getLsbD i = false) :
    crcShifts k c = c >>> k := by
  induction k generalizing c with
  | zero => simp [crcShifts]
  | succ k ih =>
    have e : crcShift c = c >>> 1 := by rw [crcShift, h 0 (by omega)]; rfl
    rw [crcShifts, e, ih]
    · rw [← BitVec.shiftRight_add, Nat.add_comm]
    · intro i hi
      rw [BitVec.getLsbD_ushiftRight]
      exact h _ (by omega)

/-- The shift is one to one: bit 31 of the result tells bit 0 of the operand. -/
theorem crcShift_eq_zero {c : BitVec 32} (h : crcShift c = 0#32) : c = 0#32 := by
  unfold crcShift at h
  split at h
  · exfalso
    have e := congrArg (fun x : BitVec 32 => x.getLsbD 31) h
    simp at e
  · rename_i h0
    apply BitVec.eq_of_getLsbD_eq
    intro i hi
    cases i with
    | zero => simpa using h0
    | succ i =>
      have e := congrArg (fun x : BitVec 32 => x.getLsbD i) h
      simp only [BitVec.getLsbD_ushiftRight, BitVec.getLsbD_zero] at e
      rw [Nat.add_comm, e]
      simp

theorem crcShifts_eq_zero {k : Nat} {c : BitVec 32} (h : crcShifts k c = 0#32) : c = 0#32 := by
  induction k generalizing c with
  | zero => exact h
  | succ k ih => exact crcShift_eq_zero (ih h)

theorem crcShifts_injective {k : Nat} {a b : BitVec 32} (h : crcShifts k a = crcShifts k b) : a = b := by
  have e : crcShifts k (a ^^^ b) = 0#32 := by rw [crcShifts_xor, h, BitVec.xor_self]
  have z := crcShifts_eq_zero e
  have := congrArg (fun x => x ^^^ b) z
  simpa [BitVec.xor_assoc] using this

/-- Two registers that differ stay different over the same bytes. -/
theorem crcFold_injective {bs : List Byte} {c d : BitVec 32} (h : crcFold c bs = crcFold d bs) : c = d := by
  induction bs generalizing c d with
  | nil => exact h
  | cons b bs ih =>
    have e := crcShifts_injective (ih h)
    have := congrArg (fun x => x ^^^ b.setWidth 32) e
    simpa [BitVec.xor_assoc] using this

/-- Two bytes that differ leave different registers. -/
theorem crcStep_byte_injective {c : BitVec 32} {x y : Byte} (h : crcStep c x = crcStep c y) : x = y := by
  have e := crcShifts_injective h
  have e2 : x.setWidth 32 = y.setWidth 32 := by
    have := congrArg (fun z => c ^^^ z) e
    simpa [← BitVec.xor_assoc] using this
  have := congrArg (fun z : BitVec 32 => z.setWidth 8) e2
  simpa using this

end Sys2Proof.Machine
end

