-- ==== Sys2Proof/Laws/Decode.lean ====
section
/-!
SUPPORT. What the decoder can answer, said once (30_encoding.md R58, R59, R61).
-/

namespace Sys2Proof

/-- WHAT THE DECODER ANSWERS: a command whose opcode is `c`'s and whose operands the ports drive, or a reserved opcode by its
number (30_encoding.md R58, R59, R61). -/
theorem decode_spec (c : Command) :
    (c.opcode ∈ assignedOpcodes ∧ ∃ i, decode c = .instr i ∧ c.opcode = opcodeOf i ∧ c.ports.drive i) ∨
    (c.opcode ∉ assignedOpcodes ∧ decode c = .reserved c.opcode) := by
  by_cases h : c.opcode ∈ assignedOpcodes
  · left
    refine ⟨h, ?_⟩
    obtain ⟨o, p⟩ := c
    simp only [assignedOpcodes, List.mem_cons, List.not_mem_nil, or_false] at h
    rcases h with rfl|rfl|rfl|rfl|rfl|rfl|rfl|rfl|rfl
    · exact ⟨.crcInit, rfl, rfl, trivial⟩
    · exact ⟨.crcByte p.b, rfl, rfl, rfl⟩
    · exact ⟨.crcRead, rfl, rfl, trivial⟩
    · exact ⟨.crcCheck p.exp, rfl, rfl, rfl⟩
    · exact ⟨.hdrEnc p.len p.fid p.csum, rfl, rfl, rfl, rfl, rfl⟩
    · exact ⟨.hdrDec p.bytes, rfl, rfl, rfl⟩
    · exact ⟨.rsmFill, rfl, rfl, trivial⟩
    · exact ⟨.rsmHdr, rfl, rfl, trivial⟩
    · exact ⟨.rsmTake p.n, rfl, rfl, rfl⟩
  · right
    refine ⟨h, ?_⟩
    have ne : ∀ k : Nat, (BitVec.ofNat 8 k) ∈ assignedOpcodes → c.opcode.toNat ≠ k := by
      intro k hk e
      apply h
      rw [← e] at hk
      simpa using hk
    unfold decode
    split
    case _ e => exact absurd e (ne _ (by decide))
    case _ e => exact absurd e (ne _ (by decide))
    case _ e => exact absurd e (ne _ (by decide))
    case _ e => exact absurd e (ne _ (by decide))
    case _ e => exact absurd e (ne _ (by decide))
    case _ e => exact absurd e (ne _ (by decide))
    case _ e => exact absurd e (ne _ (by decide))
    case _ e => exact absurd e (ne _ (by decide))
    case _ e => exact absurd e (ne _ (by decide))
    case _ => rfl

end Sys2Proof
end

