-- ==== Sys2Proof/Laws/Memory.lean ====
section
/-!
SUPPORT. What the memory operations do, one lemma each: reading after writing, reading after moving down, and that every
operation keeps the canonical form and the bound.
-/

namespace Sys2Proof.Machine

theorem Memory.read_nil (a : Nat) : Memory.read [] a = none := rfl

theorem Memory.read_cons (c : Host.Cell) (m : Memory) (a : Nat) :
    Memory.read (c :: m) a = if a = c.1 then some c.2 else Memory.read m a := by
  obtain ⟨k, b⟩ := c
  by_cases h : a = k
  · subst h; simp [Memory.read]
  · have e : (a == k) = false := by simpa using h
    simp [Memory.read, List.lookup_cons, h, e]

theorem Memory.read_append (m n : Memory) (a : Nat) :
    Memory.read (m ++ n) a = (Memory.read m a).or (Memory.read n a) := by
  induction m with
  | nil => simp [Memory.read_nil]
  | cons c m ih =>
    rw [List.cons_append, Memory.read_cons, Memory.read_cons, ih]
    split <;> simp

/-- Keeping the cells whose address passes a test keeps their bytes and drops the others. -/
theorem Memory.read_filter (m : Memory) (p : Nat → Bool) (a : Nat) :
    Memory.read (m.filter (fun c => p c.1)) a = if p a then Memory.read m a else none := by
  induction m with
  | nil => simp [Memory.read_nil]
  | cons c m ih =>
    rw [List.filter_cons]
    by_cases hp : p c.1
    · rw [if_pos hp, Memory.read_cons, Memory.read_cons, ih]
      by_cases h : a = c.1
      · subst h; simp [hp]
      · simp [h]
    · rw [if_neg hp, ih, Memory.read_cons]
      by_cases h : a = c.1
      · subst h; simp [hp]
      · simp [h]

/-- Consecutive cells hold their bytes and nothing else. -/
theorem Memory.read_cells (k : Nat) (bs : List Byte) (a : Nat) :
    Memory.read (Memory.cells k bs) a = if k ≤ a then bs[a - k]? else none := by
  induction bs generalizing k with
  | nil => simp [Memory.cells, Memory.read_nil]
  | cons b bs ih =>
    rw [Memory.cells, Memory.read_cons, ih]
    by_cases h : a = k
    · subst h; simp
    · by_cases hk : k ≤ a
      · have h1 : k + 1 ≤ a := by omega
        have h2 : a - k = a - (k + 1) + 1 := by omega
        simp [h, hk, h1, h2]
      · have h1 : ¬ k + 1 ≤ a := by omega
        simp [h, hk, h1]

/-- READ AFTER WRITE: the written bytes at their addresses, every other address as before. -/
theorem Memory.read_writeBytes (m : Memory) (k : Nat) (bs : List Byte) (a : Nat) :
    Memory.read (m.writeBytes k bs) a =
      if k ≤ a ∧ a < k + bs.length then bs[a - k]? else Memory.read m a := by
  have h1 := Memory.read_filter m (fun x => decide (x < k)) a
  have h2 := Memory.read_filter m (fun x => decide (k + bs.length ≤ x)) a
  rw [Memory.writeBytes, Memory.read_append, Memory.read_append, Memory.read_cells, h1, h2]
  by_cases hk : k ≤ a
  · by_cases hl : a < k + bs.length
    · have e : a - k < bs.length := by omega
      simp [hk, hl, Nat.not_lt.mpr hk, List.getElem?_eq_getElem e]
    · have e : bs.length ≤ a - k := by omega
      simp [hk, hl, Nat.not_lt.mpr hk, List.getElem?_eq_none e, Nat.le_of_not_lt hl]
  · have e : ¬ k + bs.length ≤ a := by omega
    simp [hk, e, Nat.lt_of_not_le hk]

/-- READ AFTER MOVING DOWN: the byte `n` further on. -/
theorem Memory.read_shiftDown (m : Memory) (n a : Nat) :
    Memory.read (m.shiftDown n) a = Memory.read m (a + n) := by
  induction m with
  | nil => rfl
  | cons c m ih =>
    rw [Memory.shiftDown, List.filter_cons, Memory.read_cons]
    by_cases h : n ≤ c.1
    · rw [if_pos (by simpa using h), List.map_cons, Memory.read_cons]
      rw [Memory.shiftDown] at ih
      rw [ih]
      have e : (a = c.1 - n) ↔ (a + n = c.1) := by omega
      simp [e]
    · rw [if_neg (by simpa using h)]
      rw [Memory.shiftDown] at ih
      rw [ih]
      have e : ¬ a + n = c.1 := by omega
      simp [e]

theorem Memory.mem_cells {k : Nat} {bs : List Byte} {c : Host.Cell} (h : c ∈ Memory.cells k bs) :
    k ≤ c.1 ∧ c.1 < k + bs.length := by
  induction bs generalizing k with
  | nil => simp [Memory.cells] at h
  | cons b bs ih =>
    rw [Memory.cells, List.mem_cons] at h
    rcases h with rfl | h
    · simp
    · have := ih h
      simp only [List.length_cons]
      omega

theorem Memory.wf_cells (k : Nat) (bs : List Byte) : Memory.wf (Memory.cells k bs) := by
  induction bs generalizing k with
  | nil => simp [Memory.cells]
  | cons b bs ih =>
    rw [Memory.cells, Memory.wf, List.pairwise_cons]
    exact ⟨fun c hc => by have := Memory.mem_cells hc; simp only; omega, ih _⟩

/-- Writing keeps the canonical form. -/
theorem Memory.wf_writeBytes {m : Memory} (h : m.wf) (k : Nat) (bs : List Byte) : (m.writeBytes k bs).wf := by
  rw [Memory.writeBytes, Memory.wf, List.pairwise_append, List.pairwise_append]
  refine ⟨⟨h.filter _, Memory.wf_cells k bs, ?_⟩, h.filter _, ?_⟩
  · intro x hx y hy
    have h1 : x.1 < k := by simpa using (List.mem_filter.mp hx).2
    have := Memory.mem_cells hy
    omega
  · intro x hx y hy
    have h2 : k + bs.length ≤ y.1 := by simpa using (List.mem_filter.mp hy).2
    rcases List.mem_append.mp hx with hx | hx
    · have h1 : x.1 < k := by simpa using (List.mem_filter.mp hx).2
      omega
    · have := Memory.mem_cells hx
      omega

/-- Moving down keeps the canonical form. -/
theorem Memory.wf_shiftDown {m : Memory} (h : m.wf) (n : Nat) : (m.shiftDown n).wf := by
  rw [Memory.shiftDown, Memory.wf, List.pairwise_map]
  refine (h.filter _).imp_of_mem ?_
  intro x y hx hy hlt
  have h1 : n ≤ x.1 := by simpa using (List.mem_filter.mp hx).2
  have h2 : n ≤ y.1 := by simpa using (List.mem_filter.mp hy).2
  simp only
  omega

/-- Writing below `cap` lists no offset from `cap` on. -/
theorem Memory.bound_writeBytes {m : Memory} {cap : Nat} (h : ∀ c ∈ m, c.1 < cap) {k : Nat} {bs : List Byte}
    (hk : k + bs.length ≤ cap) : ∀ c ∈ m.writeBytes k bs, c.1 < cap := by
  intro c hc
  rw [Memory.writeBytes, List.mem_append, List.mem_append] at hc
  rcases hc with (hc | hc) | hc
  · exact h c (List.mem_of_mem_filter hc)
  · have := Memory.mem_cells hc
    omega
  · exact h c (List.mem_of_mem_filter hc)

/-- Moving down lists no offset from `cap` on. -/
theorem Memory.bound_shiftDown {m : Memory} {cap : Nat} (h : ∀ c ∈ m, c.1 < cap) (n : Nat) :
    ∀ c ∈ m.shiftDown n, c.1 < cap := by
  intro c hc
  rw [Memory.shiftDown, List.mem_map] at hc
  obtain ⟨d, hd, rfl⟩ := hc
  have := h d (List.mem_of_mem_filter hd)
  simp only
  omega

/-- Equal memories are equal lists: two canonical memories that read alike everywhere are the same list. -/
theorem Memory.ext_read {m n : Memory} (hm : m.wf) (hn : n.wf) (h : ∀ a, m.read a = n.read a) : m = n := by
  have none_of_lt : ∀ {l : Memory} {a : Nat}, (∀ c ∈ l, a < c.1) → l.read a = none := by
    intro l a hl
    induction l with
    | nil => rfl
    | cons c l ih =>
      rw [Memory.read_cons, if_neg, ih]
      · exact fun d hd => hl d (List.mem_cons_of_mem _ hd)
      · have := hl c List.mem_cons_self
        omega
  induction m generalizing n with
  | nil =>
    cases n with
    | nil => rfl
    | cons d n =>
      have := h d.1
      rw [Memory.read_cons, if_pos rfl] at this
      cases this
  | cons c m ih =>
    obtain ⟨hc, hm'⟩ := List.pairwise_cons.mp hm
    cases n with
    | nil =>
      have := h c.1
      rw [Memory.read_cons, if_pos rfl] at this
      cases this
    | cons d n =>
      obtain ⟨hd, hn'⟩ := List.pairwise_cons.mp hn
      have key : c.1 = d.1 := by
        rcases Nat.lt_trichotomy c.1 d.1 with hlt | heq | hgt
        · have h1 := h c.1
          rw [Memory.read_cons, if_pos rfl, Memory.read_cons, if_neg (by omega),
            none_of_lt (fun e he => by have := hd e he; omega)] at h1
          cases h1
        · exact heq
        · have h1 := h d.1
          rw [Memory.read_cons, if_neg (by omega), none_of_lt (fun e he => by have := hc e he; omega),
            Memory.read_cons, if_pos rfl] at h1
          cases h1
      have hb := h c.1
      rw [Memory.read_cons, if_pos rfl, Memory.read_cons, if_pos key] at hb
      have hcd : c = d := Prod.ext key (Option.some.inj hb)
      subst hcd
      congr 1
      refine ih hm' hn' (fun a => ?_)
      by_cases ha : a = c.1
      · subst ha
        rw [none_of_lt hc, none_of_lt hd]
      · have := h a
        rwa [Memory.read_cons, if_neg ha, Memory.read_cons, if_neg ha] at this

end Sys2Proof.Machine
end

