-- ==== Sys2Proof/Laws/Operands.lean ====
section
/-!
SUPPORT. Big-endian conversion and the header codec: lengths, both round trips, single bytes.
-/

namespace Sys2Proof.Machine

@[simp] theorem be_length (k v : Nat) : (be k v).length = k := by
  induction k with
  | zero => rfl
  | succ k ih => simp [be, ih]

/-- A byte sequence of length `k` reads as less than `256 ^ k`. -/
theorem unbe_lt (bs : List Byte) : unbe bs < 256 ^ bs.length := by
  induction bs with
  | nil => simp [unbe]
  | cons b bs ih =>
    have h1 : b.toNat * 256 ^ bs.length + 256 ^ bs.length ≤ 256 * 256 ^ bs.length := by
      rw [← Nat.succ_mul]
      exact Nat.mul_le_mul_right _ b.isLt
    rw [unbe, List.length_cons, Nat.pow_succ, Nat.mul_comm (256 ^ bs.length) 256]
    omega

/-- `unbe(be_N(v)) = v` modulo `2^N` (00_scope.md R6). -/
theorem unbe_be (k v : Nat) : unbe (be k v) = v % 256 ^ k := by
  induction k with
  | zero => simp [be, unbe, Nat.mod_one]
  | succ k ih =>
    have p : (256 : Nat) ^ (k + 1) = 256 ^ k * 2 ^ 8 := Nat.pow_succ 256 k
    have e : v % (256 ^ k * 2 ^ 8) = v % 256 ^ k + 256 ^ k * (v / 256 ^ k % 2 ^ 8) := Nat.mod_mul
    rw [be, unbe, be_length, ih, BitVec.toNat_ofNat, p, e, Nat.add_comm, Nat.mul_comm (256 ^ k)]

/-- The bytes do not depend on the value above `2^N`. -/
theorem be_mod (k v j : Nat) (h : k ≤ j) : be k (v % 256 ^ j) = be k v := by
  induction k with
  | zero => rfl
  | succ k ih =>
    rw [be, be, ih (by omega)]
    congr 1
    apply BitVec.eq_of_toNat_eq
    obtain ⟨d, rfl⟩ := Nat.exists_eq_add_of_le h
    rw [BitVec.toNat_ofNat, BitVec.toNat_ofNat]
    have e : 256 ^ (k + 1 + d) = 256 ^ k * 256 ^ (1 + d) := by rw [← Nat.pow_add]; congr 1; omega
    rw [e, Nat.mod_mul_right_div_self]
    have e2 : 256 ^ (1 + d) = 256 * 256 ^ d := by rw [Nat.pow_add, Nat.pow_one]
    rw [e2]
    exact Nat.mod_mul_right_mod _ _ _

/-- `be_N(unbe(B)) = B` (00_scope.md R6). -/
theorem be_unbe (bs : List Byte) : be bs.length (unbe bs) = bs := by
  induction bs with
  | nil => rfl
  | cons b bs ih =>
    have hlt := unbe_lt bs
    have hpos : 0 < 256 ^ bs.length := Nat.pow_pos (by decide)
    rw [List.length_cons, be, unbe]
    congr 1
    · rw [Nat.mul_comm, Nat.mul_add_div hpos, Nat.div_eq_of_lt hlt, Nat.add_zero]
      simp
    · rw [← be_mod bs.length _ bs.length (Nat.le_refl _), Nat.mul_comm, Nat.mul_add_mod,
        Nat.mod_eq_of_lt hlt, ih]

/-- Byte `i` of `be_N(v)` is `v[N-1-8i : N-8-8i]` (00_scope.md R6). -/
theorem be_getElem? (k v i : Nat) (h : i < k) : (be k v)[i]? = some (BitVec.ofNat 8 (v / 256 ^ (k - 1 - i))) := by
  induction k generalizing i with
  | zero => omega
  | succ k ih =>
    rw [be]
    cases i with
    | zero => simp
    | succ i =>
      rw [List.getElem?_cons_succ, ih i (by omega)]
      congr 4
      omega

@[simp] theorem slice_length (bs : List Byte) (a b : Nat) : (slice bs a b).length = min (b - a) (bs.length - a) := by
  simp [slice]

@[simp] theorem encodeHeader_length (h : Header) : (encodeHeader h).length = 16 := by
  simp [encodeHeader]

/-- Below 16 bytes nothing decodes (41_header_codec.md R91). -/
theorem decodeHeader_short {bs : List Byte} (h : bs.length < 16) : decodeHeader bs = none := by
  simp [decodeHeader, hdrLen, h]

/-- From 16 bytes on the three fields are read (41_header_codec.md R91, R94). -/
theorem decodeHeader_long {bs : List Byte} (h : 16 ≤ bs.length) :
    decodeHeader bs = some
      { len := BitVec.ofNat 32 (unbe (slice bs 0 4))
        fid := BitVec.ofNat 64 (unbe (slice bs 4 12))
        csum := BitVec.ofNat 32 (unbe (slice bs 12 16)) } := by
  simp [decodeHeader, hdrLen, Nat.not_lt.mpr h]

/-- Decoding reads the first 16 bytes only (41_header_codec.md R94). -/
theorem decodeHeader_append {bs : List Byte} (h : bs.length = 16) (rest : List Byte) :
    decodeHeader (bs ++ rest) = decodeHeader bs := by
  have e : ∀ a b, b ≤ 16 → slice (bs ++ rest) a b = slice bs a b := by
    intro a b hb
    rw [slice, slice, List.drop_append, List.take_append]
    have : b - a - (bs.drop a).length = 0 ∨ a ≥ 16 := by
      rw [List.length_drop]; omega
    rcases this with h0 | h0
    · rw [h0]; simp
    · have : b - a = 0 := by omega
      simp [this]
  rw [decodeHeader_long (by simp [h]), decodeHeader_long (by omega), e 0 4 (by omega), e 4 12 (by omega),
    e 12 16 (by omega)]

/-- `HDR_DEC(HDR_ENC(len, fid, csum)) = (len, fid, csum)` (41_header_codec.md R92). -/
theorem decodeHeader_encodeHeader (h : Header) : decodeHeader (encodeHeader h) = some h := by
  have s1 : slice (encodeHeader h) 0 4 = be 4 h.len.toNat := by
    simp [slice, encodeHeader]
  have s2 : slice (encodeHeader h) 4 12 = be 8 h.fid.toNat := by
    simp [slice, encodeHeader]
  have s3 : slice (encodeHeader h) 12 16 = be 4 h.csum.toNat := by
    have e : (be 4 h.len.toNat).drop 12 = [] := List.drop_of_length_le (by simp)
    simp [slice, encodeHeader, List.drop_append, e]
  rw [decodeHeader_long (by simp), s1, s2, s3, unbe_be, unbe_be, unbe_be]
  have e1 : h.len.toNat % 256 ^ 4 = h.len.toNat := Nat.mod_eq_of_lt h.len.isLt
  have e2 : h.fid.toNat % 256 ^ 8 = h.fid.toNat := Nat.mod_eq_of_lt h.fid.isLt
  have e3 : h.csum.toNat % 256 ^ 4 = h.csum.toNat := Nat.mod_eq_of_lt h.csum.isLt
  rw [e1, e2, e3]
  simp

/-- `HDR_ENC(HDR_DEC(B)) = B` for 16 bytes (41_header_codec.md R92). -/
theorem encodeHeader_of_decodeHeader {bs : List Byte} (hl : bs.length = 16) {h : Header}
    (hd : decodeHeader bs = some h) : encodeHeader h = bs := by
  rw [decodeHeader_long (by omega)] at hd
  cases hd
  have l1 : (slice bs 0 4).length = 4 := by simp [hl]
  have l2 : (slice bs 4 12).length = 8 := by simp [hl]
  have l3 : (slice bs 12 16).length = 4 := by simp [hl]
  have g1 := unbe_lt (slice bs 0 4)
  have g2 := unbe_lt (slice bs 4 12)
  have g3 := unbe_lt (slice bs 12 16)
  rw [l1] at g1; rw [l2] at g2; rw [l3] at g3
  have b1 := be_unbe (slice bs 0 4)
  have b2 := be_unbe (slice bs 4 12)
  have b3 := be_unbe (slice bs 12 16)
  rw [l1] at b1; rw [l2] at b2; rw [l3] at b3
  have p4 : (256 : Nat) ^ 4 = 2 ^ 32 := by norm_num
  have p8 : (256 : Nat) ^ 8 = 2 ^ 64 := by norm_num
  rw [p4] at g1 g3
  rw [p8] at g2
  simp only [encodeHeader, BitVec.toNat_ofNat]
  rw [Nat.mod_eq_of_lt g1, Nat.mod_eq_of_lt g2, Nat.mod_eq_of_lt g3, b1, b2, b3]
  have d1 : slice bs 0 4 = bs.take 4 := by simp [slice]
  have d2 : slice bs 4 12 = (bs.drop 4).take 8 := by simp [slice]
  have d3 : slice bs 12 16 = (bs.drop 4).drop 8 := by
    rw [slice, List.drop_drop, List.take_of_length_le]
    simp [hl]
  rw [d1, d2, d3, List.append_assoc, List.take_append_drop, List.take_append_drop]

end Sys2Proof.Machine
end

