-- ==== Sys2Proof/Laws/State.lean ====
section
/-!
SUPPORT. One lemma per field per named update of State, true by unfolding, so that no later proof unfolds an update.
-/

namespace Sys2Proof.Machine

@[simp] theorem State.respond_cap (s : State) (st : BitVec 4) (r : Results) : (s.respond st r).cap = s.cap := rfl
@[simp] theorem State.respond_crc (s : State) (st : BitVec 4) (r : Results) : (s.respond st r).crc = s.crc := rfl
@[simp] theorem State.respond_buf (s : State) (st : BitVec 4) (r : Results) : (s.respond st r).buf = s.buf := rfl
@[simp] theorem State.respond_tape (s : State) (st : BitVec 4) (r : Results) : (s.respond st r).tape = s.tape := rfl
@[simp] theorem State.respond_cursor (s : State) (st : BitVec 4) (r : Results) : (s.respond st r).cursor = s.cursor := rfl
@[simp] theorem State.respond_fault (s : State) (st : BitVec 4) (r : Results) : (s.respond st r).fault = s.fault := rfl
@[simp] theorem State.respond_srcQ (s : State) (st : BitVec 4) (r : Results) : (s.respond st r).srcQ = s.srcQ := rfl
@[simp] theorem State.respond_srcClosed (s : State) (st : BitVec 4) (r : Results) : (s.respond st r).srcClosed = s.srcClosed := rfl
@[simp] theorem State.respond_waiting (s : State) (st : BitVec 4) (r : Results) : (s.respond st r).waiting = s.waiting := rfl
@[simp] theorem State.respond_inbox (s : State) (st : BitVec 4) (r : Results) : (s.respond st r).inbox = s.inbox := rfl
@[simp] theorem State.respond_outbox (s : State) (st : BitVec 4) (r : Results) : (s.respond st r).outbox = s.outbox ++ [{ status := st, results := r }] := rfl
@[simp] theorem State.respond_draws (s : State) (st : BitVec 4) (r : Results) : (s.respond st r).draws = s.draws := rfl

@[simp] theorem State.respondLatched_cap (s : State) : s.respondLatched.cap = s.cap := rfl
@[simp] theorem State.respondLatched_crc (s : State) : s.respondLatched.crc = s.crc := rfl
@[simp] theorem State.respondLatched_buf (s : State) : s.respondLatched.buf = s.buf := rfl
@[simp] theorem State.respondLatched_tape (s : State) : s.respondLatched.tape = s.tape := rfl
@[simp] theorem State.respondLatched_cursor (s : State) : s.respondLatched.cursor = s.cursor := rfl
@[simp] theorem State.respondLatched_fault (s : State) : s.respondLatched.fault = s.fault := rfl
@[simp] theorem State.respondLatched_srcQ (s : State) : s.respondLatched.srcQ = s.srcQ := rfl
@[simp] theorem State.respondLatched_srcClosed (s : State) : s.respondLatched.srcClosed = s.srcClosed := rfl
@[simp] theorem State.respondLatched_waiting (s : State) : s.respondLatched.waiting = s.waiting := rfl
@[simp] theorem State.respondLatched_inbox (s : State) : s.respondLatched.inbox = s.inbox := rfl
@[simp] theorem State.respondLatched_outbox (s : State) : s.respondLatched.outbox = s.outbox ++ [{ status := statusOfFault s.fault, results := .none }] := rfl
@[simp] theorem State.respondLatched_draws (s : State) : s.respondLatched.draws = s.draws := rfl

@[simp] theorem State.respondBadCmd_cap (s : State) : s.respondBadCmd.cap = s.cap := rfl
@[simp] theorem State.respondBadCmd_crc (s : State) : s.respondBadCmd.crc = s.crc := rfl
@[simp] theorem State.respondBadCmd_buf (s : State) : s.respondBadCmd.buf = s.buf := rfl
@[simp] theorem State.respondBadCmd_tape (s : State) : s.respondBadCmd.tape = s.tape := rfl
@[simp] theorem State.respondBadCmd_cursor (s : State) : s.respondBadCmd.cursor = s.cursor := rfl
@[simp] theorem State.respondBadCmd_fault (s : State) : s.respondBadCmd.fault = s.fault := rfl
@[simp] theorem State.respondBadCmd_srcQ (s : State) : s.respondBadCmd.srcQ = s.srcQ := rfl
@[simp] theorem State.respondBadCmd_srcClosed (s : State) : s.respondBadCmd.srcClosed = s.srcClosed := rfl
@[simp] theorem State.respondBadCmd_waiting (s : State) : s.respondBadCmd.waiting = s.waiting := rfl
@[simp] theorem State.respondBadCmd_inbox (s : State) : s.respondBadCmd.inbox = s.inbox := rfl
@[simp] theorem State.respondBadCmd_outbox (s : State) : s.respondBadCmd.outbox = s.outbox ++ [{ status := statusBadCmd, results := .none }] := rfl
@[simp] theorem State.respondBadCmd_draws (s : State) : s.respondBadCmd.draws = s.draws := rfl

@[simp] theorem State.compact_cap (s : State) (n : Nat) : (s.compact n).cap = s.cap := rfl
@[simp] theorem State.compact_crc (s : State) (n : Nat) : (s.compact n).crc = s.crc := rfl
@[simp] theorem State.compact_buf (s : State) (n : Nat) : (s.compact n).buf = s.buf.shiftDown n := rfl
@[simp] theorem State.compact_tape (s : State) (n : Nat) : (s.compact n).tape = s.tape + n := rfl
@[simp] theorem State.compact_cursor (s : State) (n : Nat) : (s.compact n).cursor = s.cap - n := rfl
@[simp] theorem State.compact_fault (s : State) (n : Nat) : (s.compact n).fault = s.fault := rfl
@[simp] theorem State.compact_srcQ (s : State) (n : Nat) : (s.compact n).srcQ = s.srcQ := rfl
@[simp] theorem State.compact_srcClosed (s : State) (n : Nat) : (s.compact n).srcClosed = s.srcClosed := rfl
@[simp] theorem State.compact_waiting (s : State) (n : Nat) : (s.compact n).waiting = s.waiting := rfl
@[simp] theorem State.compact_inbox (s : State) (n : Nat) : (s.compact n).inbox = s.inbox := rfl
@[simp] theorem State.compact_outbox (s : State) (n : Nat) : (s.compact n).outbox = s.outbox := rfl
@[simp] theorem State.compact_draws (s : State) (n : Nat) : (s.compact n).draws = s.draws := rfl

@[simp] theorem State.resetBlock_cap (s : State) : s.resetBlock.cap = s.cap := rfl
@[simp] theorem State.resetBlock_crc (s : State) : s.resetBlock.crc = Config.freeCrc s.draws := rfl
@[simp] theorem State.resetBlock_buf (s : State) : s.resetBlock.buf = [] := rfl
@[simp] theorem State.resetBlock_tape (s : State) : s.resetBlock.tape = s.tape + s.cap := rfl
@[simp] theorem State.resetBlock_cursor (s : State) : s.resetBlock.cursor = 0 := rfl
@[simp] theorem State.resetBlock_fault (s : State) : s.resetBlock.fault = 0 := rfl
@[simp] theorem State.resetBlock_srcQ (s : State) : s.resetBlock.srcQ = s.srcQ := rfl
@[simp] theorem State.resetBlock_srcClosed (s : State) : s.resetBlock.srcClosed = s.srcClosed := rfl
@[simp] theorem State.resetBlock_waiting (s : State) : s.resetBlock.waiting = false := rfl
@[simp] theorem State.resetBlock_inbox (s : State) : s.resetBlock.inbox = s.inbox := rfl
@[simp] theorem State.resetBlock_outbox (s : State) : s.resetBlock.outbox = s.outbox := rfl
@[simp] theorem State.resetBlock_draws (s : State) : s.resetBlock.draws = s.draws + 1 := rfl

@[simp] theorem State.placeWord_cap (s : State) (w : Nat) : (s.placeWord w).cap = s.cap := rfl
@[simp] theorem State.placeWord_crc (s : State) (w : Nat) : (s.placeWord w).crc = s.crc := rfl
@[simp] theorem State.placeWord_buf (s : State) (w : Nat) : (s.placeWord w).buf = s.buf := rfl
@[simp] theorem State.placeWord_tape (s : State) (w : Nat) : (s.placeWord w).tape = s.tape := rfl
@[simp] theorem State.placeWord_cursor (s : State) (w : Nat) : (s.placeWord w).cursor = s.cursor := rfl
@[simp] theorem State.placeWord_fault (s : State) (w : Nat) : (s.placeWord w).fault = s.fault := rfl
@[simp] theorem State.placeWord_srcQ (s : State) (w : Nat) : (s.placeWord w).srcQ = s.srcQ := rfl
@[simp] theorem State.placeWord_srcClosed (s : State) (w : Nat) : (s.placeWord w).srcClosed = s.srcClosed := rfl
@[simp] theorem State.placeWord_waiting (s : State) (w : Nat) : (s.placeWord w).waiting = false := rfl
@[simp] theorem State.placeWord_inbox (s : State) (w : Nat) : (s.placeWord w).inbox = .command (commandOfWord w) :: s.inbox := rfl
@[simp] theorem State.placeWord_outbox (s : State) (w : Nat) : (s.placeWord w).outbox = s.outbox := rfl
@[simp] theorem State.placeWord_draws (s : State) (w : Nat) : (s.placeWord w).draws = s.draws := rfl

@[simp] theorem State.latch_cap (s : State) (c : BitVec 2) : (s.latch c).cap = s.cap := by
  unfold State.latch; split <;> rfl
@[simp] theorem State.latch_crc (s : State) (c : BitVec 2) : (s.latch c).crc = s.crc := by
  unfold State.latch; split <;> rfl
@[simp] theorem State.latch_buf (s : State) (c : BitVec 2) : (s.latch c).buf = s.buf := by
  unfold State.latch; split <;> rfl
@[simp] theorem State.latch_tape (s : State) (c : BitVec 2) : (s.latch c).tape = s.tape := by
  unfold State.latch; split <;> rfl
@[simp] theorem State.latch_cursor (s : State) (c : BitVec 2) : (s.latch c).cursor = s.cursor := by
  unfold State.latch; split <;> rfl
@[simp] theorem State.latch_fault (s : State) (c : BitVec 2) : (s.latch c).fault = if s.fault = 0 then c else s.fault := by
  unfold State.latch; split <;> rfl
@[simp] theorem State.latch_srcQ (s : State) (c : BitVec 2) : (s.latch c).srcQ = s.srcQ := by
  unfold State.latch; split <;> rfl
@[simp] theorem State.latch_srcClosed (s : State) (c : BitVec 2) : (s.latch c).srcClosed = s.srcClosed := by
  unfold State.latch; split <;> rfl
@[simp] theorem State.latch_waiting (s : State) (c : BitVec 2) : (s.latch c).waiting = s.waiting := by
  unfold State.latch; split <;> rfl
@[simp] theorem State.latch_inbox (s : State) (c : BitVec 2) : (s.latch c).inbox = s.inbox := by
  unfold State.latch; split <;> rfl
@[simp] theorem State.latch_outbox (s : State) (c : BitVec 2) : (s.latch c).outbox = s.outbox := by
  unfold State.latch; split <;> rfl
@[simp] theorem State.latch_draws (s : State) (c : BitVec 2) : (s.latch c).draws = s.draws := by
  unfold State.latch; split <;> rfl

@[simp] theorem State.raiseLatched_cap (s : State) (c : BitVec 2) : (s.raiseLatched c).cap = s.cap := by
  simp [State.raiseLatched]
@[simp] theorem State.raiseLatched_crc (s : State) (c : BitVec 2) : (s.raiseLatched c).crc = s.crc := by
  simp [State.raiseLatched]
@[simp] theorem State.raiseLatched_buf (s : State) (c : BitVec 2) : (s.raiseLatched c).buf = s.buf := by
  simp [State.raiseLatched]
@[simp] theorem State.raiseLatched_tape (s : State) (c : BitVec 2) : (s.raiseLatched c).tape = s.tape := by
  simp [State.raiseLatched]
@[simp] theorem State.raiseLatched_cursor (s : State) (c : BitVec 2) : (s.raiseLatched c).cursor = s.cursor := by
  simp [State.raiseLatched]
@[simp] theorem State.raiseLatched_fault (s : State) (c : BitVec 2) : (s.raiseLatched c).fault = if s.fault = 0 then c else s.fault := by
  simp [State.raiseLatched]
@[simp] theorem State.raiseLatched_srcQ (s : State) (c : BitVec 2) : (s.raiseLatched c).srcQ = s.srcQ := by
  simp [State.raiseLatched]
@[simp] theorem State.raiseLatched_srcClosed (s : State) (c : BitVec 2) : (s.raiseLatched c).srcClosed = s.srcClosed := by
  simp [State.raiseLatched]
@[simp] theorem State.raiseLatched_waiting (s : State) (c : BitVec 2) : (s.raiseLatched c).waiting = s.waiting := by
  simp [State.raiseLatched]
@[simp] theorem State.raiseLatched_inbox (s : State) (c : BitVec 2) : (s.raiseLatched c).inbox = s.inbox := by
  simp [State.raiseLatched]
@[simp] theorem State.raiseLatched_outbox (s : State) (c : BitVec 2) : (s.raiseLatched c).outbox = s.outbox ++ [{ status := statusOfFault c, results := .none }] := by
  simp [State.raiseLatched]
@[simp] theorem State.raiseLatched_draws (s : State) (c : BitVec 2) : (s.raiseLatched c).draws = s.draws := by
  simp [State.raiseLatched]

/-- A fault raised while nothing is latched, as one record update (60_exceptions.md R124). -/
theorem State.raiseLatched_of_unlatched (s : State) (c : BitVec 2) (h : s.fault = 0) :
    s.raiseLatched c =
      { s with fault := c, outbox := s.outbox ++ [{ status := statusOfFault c, results := .none }] } := by
  simp [State.raiseLatched, State.latch, State.respond, h]

/-- A state is its fields: two states with equal fields are equal. -/
theorem State.ext_fields (s t : State) (h1 : s.cap = t.cap) (h2 : s.crc = t.crc) (h3 : s.buf = t.buf)
    (h4 : s.tape = t.tape) (h5 : s.cursor = t.cursor) (h6 : s.fault = t.fault) (h7 : s.srcQ = t.srcQ)
    (h8 : s.srcClosed = t.srcClosed) (h9 : s.waiting = t.waiting) (h10 : s.inbox = t.inbox)
    (h11 : s.outbox = t.outbox) (h12 : s.draws = t.draws) : s = t := by
  cases s; cases t; simp_all

/-- The response of the command that completed last is the one just given. -/
@[simp] theorem State.lastResponse_respond (s : State) (st : BitVec 4) (r : Results) :
    (s.respond st r).outbox.getLast? = some { status := st, results := r } := by
  simp

end Sys2Proof.Machine
end

