-- ==== Sys2Proof/Laws/Ops.lean ====
section
/-!
SUPPORT. What each shared operation over the state does, said once: the buffer's bytes after a write, a compaction, a reset;
when MemRead and MemWrite answer; what the environment can do.
-/

namespace Sys2Proof.Machine

/-- An unlisted buffer byte is the free byte at its place (10_state.md R17). -/
theorem State.bufByte_of_unlisted (s : State) (a : Nat) (h : s.buf.read a = none) :
    s.bufByte a = Config.freeByte (s.tape + a) := by
  simp [State.bufByte, h]

/-- The bytes of the buffer depend on the cells and the base of the free bytes alone. -/
theorem State.bufByte_congr {s t : State} (h1 : t.buf = s.buf) (h2 : t.tape = s.tape) (a : Nat) :
    t.bufByte a = s.bufByte a := by
  simp [State.bufByte, h1, h2]

/-- After the compaction of `RSM_TAKE n` offset `a` holds what offset `a + n` held (42_reassembler.md R104). -/
@[simp] theorem State.compact_bufByte (s : State) (n a : Nat) : (s.compact n).bufByte a = s.bufByte (a + n) := by
  have e : s.tape + n + a = s.tape + (a + n) := by omega
  simp [State.bufByte, Memory.read_shiftDown, e]

/-- The bytes past the end of the buffer are the free bytes still to come: this is what makes the tail after a take
unspecified (42_reassembler.md R104; log 4). -/
theorem State.bufByte_past_end {s : State} (h : ∀ c ∈ s.buf, c.1 < s.cap) (a : Nat) (ha : s.cap ≤ a) :
    s.bufByte a = Config.freeByte (s.tape + a) := by
  apply State.bufByte_of_unlisted
  cases hr : s.buf.read a with
  | none => rfl
  | some b =>
    exfalso
    have mem : ∀ {m : Memory}, (∀ c ∈ m, c.1 < s.cap) → m.read a = none := by
      intro m hm
      induction m with
      | nil => rfl
      | cons c m ih =>
        rw [Memory.read_cons, if_neg, ih fun d hd => hm d (List.mem_cons_of_mem _ hd)]
        have := hm c List.mem_cons_self
        omega
    rw [mem h] at hr
    cases hr

/-- MemRead answers exactly when the range lies in the buffer (20_memory.md R31). -/
theorem State.memRead_ok {s : State} {a n : Nat} (h : a + n ≤ s.cap) :
    s.memRead a n = .ok ((List.range n).map (fun i => s.bufByte (a + i))) := by
  simp [State.memRead, h]

/-- MemWrite answers exactly when the range lies in the buffer (20_memory.md R31). -/
theorem State.memWrite_ok {s : State} {a : Nat} {bs : List Byte} (h : a + bs.length ≤ s.cap) :
    s.memWrite a bs = .ok { s with buf := s.buf.writeBytes a bs } := by
  simp [State.memWrite, h]

/-- The buffer's bytes after a write. -/
theorem State.bufByte_writeBytes (s t : State) (a : Nat) (bs : List Byte) (hb : t.buf = s.buf.writeBytes a bs)
    (ht : t.tape = s.tape) (x : Nat) :
    t.bufByte x = if a ≤ x ∧ x < a + bs.length then bs.getD (x - a) 0 else s.bufByte x := by
  rw [State.bufByte, hb, ht, Memory.read_writeBytes]
  by_cases h : a ≤ x ∧ x < a + bs.length
  · have e : x - a < bs.length := by omega
    simp [h, List.getD, List.getElem?_eq_getElem e]
  · simp [h, State.bufByte]

/-- The buffer's bytes after a fill: the bytes read at `cursor, cursor+1, ...` in order, every other byte as before
(42_reassembler.md R101). -/
theorem State.fill_bytes {s t : State} (hb : t.buf = s.buf.writeBytes s.cursor (s.srcQ.take (s.cap - s.cursor)))
    (ht : t.tape = s.tape) (ha : s.cap - s.cursor ≤ s.srcQ.length) :
    (∀ i, i < s.cap - s.cursor → s.srcQ[i]? = some (t.bufByte (s.cursor + i))) ∧
    ∀ a, ¬ (s.cursor ≤ a ∧ a < s.cap) → t.bufByte a = s.bufByte a := by
  have e : (s.srcQ.take (s.cap - s.cursor)).length = s.cap - s.cursor := by
    rw [List.length_take]; omega
  constructor
  · intro i hi
    rw [State.bufByte_writeBytes s t s.cursor _ hb ht, if_pos (by omega), Nat.add_sub_cancel_left]
    simp [List.getD, hi, List.getElem?_eq_getElem (show i < s.srcQ.length by omega)]
  · intro a h
    rw [State.bufByte_writeBytes s t s.cursor _ hb ht, if_neg (by omega)]

/-- A fill leaves the bytes outside `[cursor, CAP)` as they were (42_reassembler.md R101). -/
theorem State.fill_other_bytes {s t : State}
    (hb : t.buf = s.buf.writeBytes s.cursor (s.srcQ.take (s.cap - s.cursor)))
    (ht : t.tape = s.tape) (ha : s.cap - s.cursor ≤ s.srcQ.length) (a : Nat) (h : ¬ (s.cursor ≤ a ∧ a < s.cap)) :
    t.bufByte a = s.bufByte a :=
  (State.fill_bytes hb ht ha).2 a h

/-- The buffer's bytes outside `[cursor, CAP)` after a `ShortRead` (42_reassembler.md R102). -/
theorem State.shortRead_bytes {s t : State} (hb : t.buf = s.buf.writeBytes s.cursor s.shortReadBytes)
    (ht : t.tape = s.tape) (a : Nat) (h : ¬ (s.cursor ≤ a ∧ a < s.cap)) : t.bufByte a = s.bufByte a := by
  have e : s.shortReadBytes.length = s.cap - s.cursor := by simp [State.shortReadBytes, State.fillNeed]
  rw [State.bufByte_writeBytes s t s.cursor _ hb ht, if_neg (by omega)]

@[simp] theorem State.shortReadBytes_length (s : State) : s.shortReadBytes.length = s.fillNeed := by
  simp [State.shortReadBytes]

/-- What a `ShortRead` does, for a fill that is not full (42_reassembler.md R102). -/
theorem State.shortRead_ok {s : State} (hf : s.fault = 0) (hc : s.cursor ≤ s.cap) :
    s.shortRead = .ok { s with
      buf := s.buf.writeBytes s.cursor s.shortReadBytes
      cursor := Config.freeCursor s.draws % (s.cap + 1)
      srcQ := Config.freeStream s.draws
      draws := s.draws + 1
      fault := faultShortRead
      outbox := s.outbox ++ [{ status := 2, results := .none }] } := by
  have e : s.cursor + s.shortReadBytes.length ≤ s.cap := by
    rw [State.shortReadBytes_length, State.fillNeed]; omega
  rw [State.shortRead, State.memWrite_ok e]
  simp only
  rw [State.raiseLatched_of_unlatched _ _ (by simpa using hf)]
  rfl

/-- When a fill has no step (42_reassembler.md R101). -/
theorem State.fillBlocked_iff (s : State) :
    s.fillBlocked = true ↔
      s.fault = 0 ∧ s.cursor ≠ s.cap ∧ s.srcAvail < s.fillNeed ∧ s.srcClosed = false := by
  simp [State.fillBlocked, and_assoc]

/-- What a move of the environment does when the model goes on (10_state.md R19, R20). -/
theorem State.envStep_next {s t : State} {m : EnvMove} (h : s.envStep m = .next t) :
    (∃ bs, m = .arrive bs ∧ (s.srcClosed = false ∨ bs = []) ∧ t = { s with srcQ := s.srcQ ++ bs }) ∨
    (m = .close ∧ t = { s with srcClosed := true }) := by
  cases m with
  | arrive bs =>
    left
    simp only [State.envStep] at h
    split at h
    · cases h
    · rename_i hc
      cases h
      refine ⟨bs, rfl, ?_, rfl⟩
      cases hcl : s.srcClosed <;> simp_all
  | close =>
    right
    simp only [State.envStep] at h
    cases h
    exact ⟨rfl, rfl⟩

/-- While a fill waits the next input is a reset at the head, or a move of the environment; never a command
(00_scope.md R7, 70_reset_and_hazards.md R140). -/
theorem nextWhileWaiting_some {es rest : List Event} {e : Event} (h : nextWhileWaiting es = some (e, rest)) :
    (e = .reset ∧ es = .reset :: rest) ∨ (∃ m, e = .env m ∧ nextEnvMove es = some (m, rest)) := by
  unfold nextWhileWaiting at h
  split at h
  · cases h
    exact .inl ⟨rfl, rfl⟩
  · rename_i hne
    cases hm : nextEnvMove es with
    | none => rw [hm] at h; cases h
    | some p =>
      rw [hm] at h
      cases h
      exact .inr ⟨p.1, rfl, by simp⟩

end Sys2Proof.Machine
end

