-- ==== Sys2Proof/Laws/Exec.lean ====
section
/-!
SUPPORT. One lemma per meaning that says what it answers, branch by branch, and the inversion of a step: what happened when
a step answers a next state. Later proofs cite these and unfold no meaning.
-/

namespace Sys2Proof.Machine

/-- While a fault is latched `RSM_FILL` answers it (60_exceptions.md R124). -/
theorem execRsmFill_latched {s : State} (h : s.fault ≠ 0) :
    execRsmFill s = .next { s with
      waiting := false
      outbox := s.outbox ++ [{ status := statusOfFault s.fault, results := .none }] } := by
  have e : ¬ s.fillBlocked = true := fun hb => h ((State.fillBlocked_iff s).mp hb).1
  rw [execRsmFill, if_neg e, if_pos h]
  rfl

/-- On a full buffer, `cursor = CAP`, a fill is a no-op (42_reassembler.md R101 (a)). -/
theorem execRsmFill_full {s : State} (hf : s.fault = 0) (hc : s.cursor = s.cap) :
    execRsmFill s = .next { s with
      waiting := false
      outbox := s.outbox ++ [{ status := 0, results := .none }] } := by
  have e : ¬ s.fillBlocked = true := fun hb => ((State.fillBlocked_iff s).mp hb).2.1 hc
  rw [execRsmFill, if_neg e, if_neg (not_not_intro hf), if_pos hc]
  rfl

/-- With enough bytes pending a fill reads exactly what it needs (42_reassembler.md R101). -/
theorem execRsmFill_reads {s : State} (hf : s.fault = 0) (hc : s.cursor < s.cap)
    (ha : s.cap - s.cursor ≤ s.srcQ.length) :
    execRsmFill s = .next { s with
      buf := s.buf.writeBytes s.cursor (s.srcQ.take (s.cap - s.cursor))
      cursor := 0
      srcQ := s.srcQ.drop (s.cap - s.cursor)
      waiting := false
      outbox := s.outbox ++ [{ status := 0, results := .none }] } := by
  have e : ¬ s.fillBlocked = true := fun hb => Nat.not_lt.mpr ha ((State.fillBlocked_iff s).mp hb).2.2.1
  have hne : s.cursor ≠ s.cap := Nat.ne_of_lt hc
  have hle : s.fillNeed ≤ s.srcAvail := ha
  have hw : s.cursor + (s.srcQ.take s.fillNeed).length ≤ s.cap := by
    rw [List.length_take, State.fillNeed]; omega
  rw [execRsmFill, if_neg e, if_neg (not_not_intro hf), if_neg hne, if_pos hle, State.memWrite_ok hw]
  rfl

/-- With too few bytes on a closed stream a fill is a `ShortRead` (42_reassembler.md R101, R102). -/
theorem execRsmFill_short {s : State} (hf : s.fault = 0) (hc : s.cursor < s.cap)
    (ha : s.srcQ.length < s.cap - s.cursor) (hcl : s.srcClosed = true) :
    execRsmFill s = .next { s with
      buf := s.buf.writeBytes s.cursor s.shortReadBytes
      cursor := Config.freeCursor s.draws % (s.cap + 1)
      srcQ := Config.freeStream s.draws
      draws := s.draws + 1
      fault := faultShortRead
      waiting := false
      outbox := s.outbox ++ [{ status := 2, results := .none }] } := by
  have e : ¬ s.fillBlocked = true := fun hb => by
    rw [((State.fillBlocked_iff s).mp hb).2.2.2] at hcl
    cases hcl
  have hne : s.cursor ≠ s.cap := Nat.ne_of_lt hc
  have hle : ¬ s.fillNeed ≤ s.srcAvail := Nat.not_le.mpr ha
  have hs := State.shortRead_ok (s := { s with waiting := false }) hf (Nat.le_of_lt hc)
  rw [execRsmFill, if_neg e, if_neg (not_not_intro hf), if_neg hne, if_neg hle, hs]
  rfl

/-- With too few bytes on an open stream a fill waits, with no response (42_reassembler.md R101). -/
theorem execRsmFill_waits {s : State} (h : s.fillBlocked = true) :
    execRsmFill s = .next { s with waiting := true } := by
  simp [execRsmFill, h]

/-- The five cases of a fill, for a cursor in its range (42_reassembler.md R101, 95_test_vectors.md V-RSM-6). -/
theorem execRsmFill_cases (s : State) (hc : s.cursor ≤ s.cap) :
    s.fault ≠ 0 ∨ (s.fault = 0 ∧ s.cursor = s.cap) ∨
    (s.fault = 0 ∧ s.cursor < s.cap ∧ s.cap - s.cursor ≤ s.srcQ.length) ∨
    (s.fault = 0 ∧ s.cursor < s.cap ∧ s.srcQ.length < s.cap - s.cursor ∧ s.srcClosed = true) ∨
    s.fillBlocked = true := by
  by_cases hf : s.fault = 0
  · rcases Nat.lt_or_eq_of_le hc with hlt | heq
    · rcases Nat.lt_or_ge s.srcQ.length (s.cap - s.cursor) with h | h
      · cases hcl : s.srcClosed with
        | true => simp_all
        | false =>
          right; right; right; right
          exact (State.fillBlocked_iff s).mpr ⟨hf, Nat.ne_of_lt hlt, h, hcl⟩
      · exact .inr (.inr (.inl ⟨hf, hlt, h⟩))
    · exact .inr (.inl ⟨hf, heq⟩)
  · exact .inl hf

/-- While a fault is latched `RSM_HDR` answers it (60_exceptions.md R124). -/
theorem execRsmHdr_latched {s : State} (h : s.fault ≠ 0) :
    execRsmHdr s = .next { s with
      outbox := s.outbox ++ [{ status := statusOfFault s.fault, results := .none }] } := by
  rw [execRsmHdr, if_pos h]
  rfl

/-- `RSM_HDR` decodes the first 16 buffer bytes and changes nothing (42_reassembler.md R103). -/
theorem execRsmHdr_reads {s : State} (hf : s.fault = 0) (hc : 16 ≤ s.cap) {h : Header}
    (hd : decodeHeader ((List.range 16).map s.bufByte) = some h) :
    execRsmHdr s = .next { s with outbox := s.outbox ++ [{ status := 0, results := .fields h }] } := by
  have hm : min hdrLen s.cap = 16 := by simp [hdrLen]; omega
  have hr : s.memRead 0 16 = .ok ((List.range 16).map (fun i => s.bufByte (0 + i))) :=
    State.memRead_ok (by omega)
  simp only [Nat.zero_add] at hr
  rw [execRsmHdr, if_neg (not_not_intro hf), hm, hr]
  simp only [hd]
  rfl

/-- The unreachable branch of `RSM_HDR` (42_reassembler.md R103). -/
theorem execRsmHdr_small {s : State} (hf : s.fault = 0) (hc : s.cap < 16) :
    execRsmHdr s = .next { s with
      fault := 1
      outbox := s.outbox ++ [{ status := 1, results := .none }] } := by
  have hm : min hdrLen s.cap = s.cap := by simp [hdrLen]; omega
  have hr : s.memRead 0 s.cap = .ok ((List.range s.cap).map (fun i => s.bufByte (0 + i))) :=
    State.memRead_ok (by omega)
  have hd : decodeHeader ((List.range s.cap).map (fun i => s.bufByte (0 + i))) = none :=
    decodeHeader_short (by simpa using hc)
  rw [execRsmHdr, if_neg (not_not_intro hf), hm, hr]
  simp only [hd]
  rw [State.raiseLatched_of_unlatched _ _ hf]
  rfl

/-- While a fault is latched `RSM_TAKE` answers it, whatever `n` (60_exceptions.md R124, R128). -/
theorem execRsmTake_latched {s : State} (n : Nat) (h : s.fault ≠ 0) :
    execRsmTake n s = .next { s with
      outbox := s.outbox ++ [{ status := statusOfFault s.fault, results := .none }] } := by
  rw [execRsmTake, if_pos h]
  rfl

/-- `n > CAP` is a `BufferOverflow` before any effect (42_reassembler.md R105). -/
theorem execRsmTake_overflow {s : State} {n : Nat} (hf : s.fault = 0) (hn : s.cap < n) :
    execRsmTake n s = .next { s with
      fault := 3
      outbox := s.outbox ++ [{ status := 3, results := .none }] } := by
  rw [execRsmTake, if_neg (not_not_intro hf), if_pos hn]
  rw [State.raiseLatched_of_unlatched _ _ hf]
  rfl

/-- `n <= CAP`: the first `n` bytes are returned and the buffer is compacted (42_reassembler.md R104). -/
theorem execRsmTake_takes {s : State} {n : Nat} (hf : s.fault = 0) (hn : n ≤ s.cap) :
    execRsmTake n s = .next { s.compact n with
      outbox := s.outbox ++ [{ status := 0, results := .data ((List.range n).map s.bufByte) }] } := by
  have hr : s.memRead 0 n = .ok ((List.range n).map (fun i => s.bufByte (0 + i))) :=
    State.memRead_ok (by omega)
  simp only [Nat.zero_add] at hr
  rw [execRsmTake, if_neg (not_not_intro hf), if_neg (Nat.not_lt.mpr hn), hr]
  rfl

/-- WHAT A FILL CAN DO: when `RSM_FILL` answers a next state, one of these five cases holds (42_reassembler.md R101, R102). -/
theorem execRsmFill_next {s t : State} (h : execRsmFill s = .next t) :
   (s.fillBlocked = true ∧ t = {s with waiting := true}) ∨
   (s.fault ≠ 0 ∧ t = { s with waiting := false, outbox := s.outbox ++ [{ status := statusOfFault s.fault, results := .none }] }) ∨
   (s.fault = 0 ∧ s.cursor = s.cap ∧ t = { s with waiting := false, outbox := s.outbox ++ [{ status := 0, results := .none }] }) ∨
   (s.fault = 0 ∧ s.cursor < s.cap ∧ s.cap - s.cursor ≤ s.srcQ.length ∧ t = { s with
      buf := s.buf.writeBytes s.cursor (s.srcQ.take (s.cap - s.cursor))
      cursor := 0
      srcQ := s.srcQ.drop (s.cap - s.cursor)
      waiting := false
      outbox := s.outbox ++ [{ status := 0, results := .none }] }) ∨
   (s.fault = 0 ∧ s.cursor < s.cap ∧ s.srcQ.length < s.cap - s.cursor ∧ s.srcClosed = true ∧ t = { s with
      buf := s.buf.writeBytes s.cursor s.shortReadBytes
      cursor := Config.freeCursor s.draws % (s.cap + 1)
      srcQ := Config.freeStream s.draws
      draws := s.draws + 1
      fault := faultShortRead
      waiting := false
      outbox := s.outbox ++ [{ status := 2, results := .none }] }) := by
  rcases Nat.lt_or_ge s.cap s.cursor with hlt | hc
  · by_cases hf : s.fault = 0
    · exfalso
      have e : ¬ s.fillBlocked = true := fun hb => by
        have := ((State.fillBlocked_iff s).mp hb).2.2.1
        simp only [State.srcAvail, State.fillNeed] at this; omega
      have e2 : ¬ s.cursor = s.cap := by omega
      have e3 : s.fillNeed ≤ s.srcAvail := by simp only [State.srcAvail, State.fillNeed]; omega
      have e4 : s.memWrite s.cursor (s.srcQ.take s.fillNeed) = .error .bufOutOfRange := by
        rw [State.memWrite, if_neg (by omega)]
      rw [execRsmFill, if_neg e, if_neg (not_not_intro hf), if_neg e2, if_pos e3, e4] at h
      cases h
    · rw [execRsmFill_latched hf] at h; cases h; exact .inr (.inl ⟨hf, rfl⟩)
  · rcases execRsmFill_cases s hc with h1 | ⟨h0, h1⟩ | ⟨h0, h1, h2⟩ | ⟨h0, h1, h2, h3⟩ | hb
    · rw [execRsmFill_latched h1] at h; cases h; exact .inr (.inl ⟨h1, rfl⟩)
    · rw [execRsmFill_full h0 h1] at h; cases h; exact .inr (.inr (.inl ⟨h0, h1, rfl⟩))
    · rw [execRsmFill_reads h0 h1 h2] at h; cases h; exact .inr (.inr (.inr (.inl ⟨h0, h1, h2, rfl⟩)))
    · rw [execRsmFill_short h0 h1 h2 h3] at h; cases h; exact .inr (.inr (.inr (.inr ⟨h0, h1, h2, h3, rfl⟩)))
    · rw [execRsmFill_waits hb] at h; cases h; exact .inl ⟨hb, rfl⟩

/-- What `RSM_HDR` can do (42_reassembler.md R103). -/
theorem execRsmHdr_next {s t : State} (h : execRsmHdr s = .next t) :
   (s.fault ≠ 0 ∧ t = { s with outbox := s.outbox ++ [{ status := statusOfFault s.fault, results := .none }] }) ∨
   (s.fault = 0 ∧ s.cap < 16 ∧ t = { s with fault := 1, outbox := s.outbox ++ [{ status := 1, results := .none }] }) ∨
   (s.fault = 0 ∧ 16 ≤ s.cap ∧ ∃ hd, decodeHeader ((List.range 16).map s.bufByte) = some hd ∧ t = { s with outbox := s.outbox ++ [{ status := 0, results := .fields hd }] }) := by
  by_cases hf : s.fault = 0
  · rcases Nat.lt_or_ge s.cap 16 with hc | hc
    · rw [execRsmHdr_small hf hc] at h; cases h; exact .inr (.inl ⟨hf, hc, rfl⟩)
    · have hd := decodeHeader_long (bs := (List.range 16).map s.bufByte) (by simp)
      rw [execRsmHdr_reads hf hc hd] at h; cases h
      exact .inr (.inr ⟨hf, hc, _, hd, rfl⟩)
  · rw [execRsmHdr_latched hf] at h; cases h; exact .inl ⟨hf, rfl⟩

/-- What `RSM_TAKE n` can do (42_reassembler.md R104, R105). -/
theorem execRsmTake_next {n : Nat} {s t : State} (h : execRsmTake n s = .next t) :
   (s.fault ≠ 0 ∧ t = { s with outbox := s.outbox ++ [{ status := statusOfFault s.fault, results := .none }] }) ∨
   (s.fault = 0 ∧ s.cap < n ∧ t = { s with fault := 3, outbox := s.outbox ++ [{ status := 3, results := .none }] }) ∨
   (s.fault = 0 ∧ n ≤ s.cap ∧ t = { s.compact n with
      outbox := s.outbox ++ [{ status := 0, results := .data ((List.range n).map s.bufByte) }] }) := by
  by_cases hf : s.fault = 0
  · rcases Nat.lt_or_ge s.cap n with hc | hc
    · rw [execRsmTake_overflow hf hc] at h; cases h; exact .inr (.inl ⟨hf, hc, rfl⟩)
    · rw [execRsmTake_takes hf hc] at h; cases h
      exact .inr (.inr ⟨hf, hc, rfl⟩)
  · rw [execRsmTake_latched n hf] at h; cases h; exact .inl ⟨hf, rfl⟩

/-- What the commands of units CRC and HDR can do: one legal response, perhaps the register `crc`, nothing else, and the
latch is not read (10_state.md R11, R13, R16; 60_exceptions.md R124). -/
theorem exec_next_of_not_rsm {i : Instr} (hi : isRsm i = false) {s t : State} (h : exec i s = .next t) :
   ∃ r : Response, r.legal ∧ t = {s with crc := t.crc, outbox := s.outbox ++ [r]} ∧ ((i ≠ .crcInit → (∀ b, i ≠ .crcByte b) → t.crc = s.crc)) ∧ ∀ f : BitVec 2, exec i { s with fault := f } = .next { t with fault := f } := by
  have legal0 : ∀ r, (Response.mk 0 r).legal := fun r => ⟨show (0 : BitVec 4) ∈ producedStatuses by decide, fun h => absurd rfl h⟩
  cases i <;> simp [isRsm] at hi
  case crcInit => cases h; exact ⟨_, legal0 _, rfl, fun h => absurd rfl h, fun f => rfl⟩
  case crcByte b => cases h; exact ⟨_, legal0 _, rfl, fun _ h => absurd rfl (h b), fun f => rfl⟩
  case crcRead => cases h; exact ⟨_, legal0 _, rfl, fun _ _ => rfl, fun f => rfl⟩
  case crcCheck => cases h; exact ⟨_, legal0 _, rfl, fun _ _ => rfl, fun f => rfl⟩
  case hdrEnc => cases h; exact ⟨_, legal0 _, rfl, fun _ _ => rfl, fun f => rfl⟩
  case hdrDec bs =>
    simp only [exec, execHdrDec] at h ⊢
    cases hd : decodeHeader bs with
    | none => rw [hd] at h; cases h; exact ⟨⟨1, .none⟩, ⟨show (1 : BitVec 4) ∈ producedStatuses by decide, fun _ => rfl⟩, rfl, fun _ _ => rfl, fun f => rfl⟩
    | some hh => rw [hd] at h; cases h; exact ⟨_, legal0 _, rfl, fun _ _ => rfl, fun f => rfl⟩

/-- What a step of an idle instance with an input does (00_scope.md R7). -/
theorem step_idle {s : State} (hw : s.waiting = false) {e : Event} {rest : List Event} (h : s.inbox = e :: rest) :
    step s = applyEvent e { s with inbox := rest } := by
  simp [step, hw, idleStep, h]

/-- With no input an idle instance stays as it is (70_reset_and_hazards.md R142). -/
theorem step_idle_empty {s : State} (hw : s.waiting = false) (h : s.inbox = []) : step s = .next s := by
  simp [step, hw, idleStep, h]

/-- A waiting fill that is enabled executes (42_reassembler.md R101). -/
theorem step_waiting_enabled {s : State} (hw : s.waiting = true) (h : s.fillBlocked = false) :
    step s = exec .rsmFill s := by
  simp [step, hw, waitStep, h]

/-- While a fill has no step, only the inputs that can happen then happen (42_reassembler.md R101). -/
theorem step_waiting_blocked {s : State} (hw : s.waiting = true) (h : s.fillBlocked = true) :
    step s = match nextWhileWaiting s.inbox with
      | none => .next s
      | some (e, rest) => applyEvent e { s with inbox := rest } := by
  have e : step s = waitStep s := by simp [step, hw]
  exact e.trans ((if_pos h).trans (by cases nextWhileWaiting s.inbox <;> rfl))

/-- WHAT A STEP CAN DO: every step that answers a next state is one of these (00_scope.md R7; 42_reassembler.md R101;
70_reset_and_hazards.md R140; 20_memory.md R41). -/
theorem step_cases {s t : State} (h : step s = .next t) :
    (t = s) ∨
    (∃ c rest, s.waiting = false ∧ s.inbox = .command c :: rest ∧ issue c { s with inbox := rest } = .next t) ∨
    (∃ rest, (s.waiting = false ∨ s.fillBlocked = true) ∧ s.inbox = .reset :: rest ∧
      t = State.resetBlock { s with inbox := rest }) ∨
    (∃ m rest, (s.waiting = false ∨ s.fillBlocked = true) ∧ State.envStep { s with inbox := rest } m = .next t) ∨
    (s.waiting = true ∧ s.fillBlocked = false ∧ exec .rsmFill s = .next t) := by
  by_cases hw : s.waiting = true
  · by_cases hb : s.fillBlocked = true
    · rw [step_waiting_blocked hw hb] at h
      cases hn : nextWhileWaiting s.inbox with
      | none =>
        rw [hn] at h
        cases h
        exact .inl rfl
      | some p =>
        obtain ⟨e, rest⟩ := p
        rw [hn] at h
        rcases nextWhileWaiting_some hn with ⟨rfl, hi⟩ | ⟨m, rfl, _⟩
        · cases h
          exact .inr (.inr (.inl ⟨rest, .inr hb, hi, rfl⟩))
        · exact .inr (.inr (.inr (.inl ⟨m, rest, .inr hb, h⟩)))
    · rw [step_waiting_enabled hw (by simpa using hb)] at h
      exact .inr (.inr (.inr (.inr ⟨hw, by simpa using hb, h⟩)))
  · have hw' : s.waiting = false := by simpa using hw
    cases hi : s.inbox with
    | nil =>
      rw [step_idle_empty hw' hi] at h
      cases h
      exact .inl rfl
    | cons e rest =>
      rw [step_idle hw' hi] at h
      cases e with
      | command c => exact .inr (.inl ⟨c, rest, hw', rfl, h⟩)
      | reset =>
        cases h
        exact .inr (.inr (.inl ⟨rest, .inl hw', rfl, rfl⟩))
      | env m => exact .inr (.inr (.inr (.inl ⟨m, rest, .inl hw', h⟩)))

end Sys2Proof.Machine
end

