-- ==== Sys2Proof/Laws/PerInstr.lean ====
section
/-!
SUPPORT. Statements made per command: its operands are in the ranges of their ports, its encoding is an assigned opcode,
and that opcode alone selects the command, with the operands read from the ports (30_encoding.md R57, R58, R59).
-/

namespace Sys2Proof.Laws

/-- The encoding of a command is well formed, and whatever stands on the ports, its opcode selects a command with that same
opcode whose operands the ports drive. -/
def OpcodeSelects.Statement (i : Instr) : Prop :=
  i.WellFormed = true ∧ (encode i).WellFormed = true ∧
    ∀ p : Ports, ∃ j, decode { opcode := opcodeOf i, ports := p } = .instr j ∧ opcodeOf j = opcodeOf i ∧ p.drive j

theorem OpcodeSelects.crcInit : OpcodeSelects.Statement .crcInit :=
  ⟨rfl, rfl, fun _ => ⟨.crcInit, rfl, rfl, trivial⟩⟩

theorem OpcodeSelects.crcByte (b : Byte) : OpcodeSelects.Statement (.crcByte b) :=
  ⟨decide_eq_true b.isLt, rfl, fun p => ⟨.crcByte p.b, rfl, rfl, rfl⟩⟩

theorem OpcodeSelects.crcRead : OpcodeSelects.Statement .crcRead :=
  ⟨rfl, rfl, fun _ => ⟨.crcRead, rfl, rfl, trivial⟩⟩

theorem OpcodeSelects.crcCheck (exp : BitVec 32) : OpcodeSelects.Statement (.crcCheck exp) :=
  ⟨decide_eq_true exp.isLt, rfl, fun p => ⟨.crcCheck p.exp, rfl, rfl, rfl⟩⟩

theorem OpcodeSelects.hdrEnc (len : BitVec 32) (fid : BitVec 64) (csum : BitVec 32) :
    OpcodeSelects.Statement (.hdrEnc len fid csum) :=
  ⟨by simp [Instr.WellFormed, len.isLt, fid.isLt, csum.isLt], rfl,
    fun p => ⟨.hdrEnc p.len p.fid p.csum, rfl, rfl, rfl, rfl, rfl⟩⟩

theorem OpcodeSelects.hdrDec (bytes : List Byte) : OpcodeSelects.Statement (.hdrDec bytes) :=
  ⟨rfl, rfl, fun p => ⟨.hdrDec p.bytes, rfl, rfl, rfl⟩⟩

theorem OpcodeSelects.rsmFill : OpcodeSelects.Statement .rsmFill :=
  ⟨rfl, rfl, fun _ => ⟨.rsmFill, rfl, rfl, trivial⟩⟩

theorem OpcodeSelects.rsmHdr : OpcodeSelects.Statement .rsmHdr :=
  ⟨rfl, rfl, fun _ => ⟨.rsmHdr, rfl, rfl, trivial⟩⟩

theorem OpcodeSelects.rsmTake (n : Nat) : OpcodeSelects.Statement (.rsmTake n) :=
  ⟨rfl, rfl, fun p => ⟨.rsmTake p.n, rfl, rfl, rfl⟩⟩

/-- Every command is well formed: the ports are typed (30_encoding.md R59). -/
theorem instr_wellFormed (i : Instr) : i.WellFormed = true := by
  cases i with
  | crcInit => rfl
  | crcByte b => exact (OpcodeSelects.crcByte b).1
  | crcRead => rfl
  | crcCheck exp => exact (OpcodeSelects.crcCheck exp).1
  | hdrEnc len fid csum => exact (OpcodeSelects.hdrEnc len fid csum).1
  | hdrDec bytes => rfl
  | rsmFill => rfl
  | rsmHdr => rfl
  | rsmTake n => rfl

end Sys2Proof.Laws
end

