-- ==== Sys2Proof/Laws/Pseudo.lean ====
section
/-!
SUPPORT. Sequences of commands: the next command of a sequence, and the commands of `CRC32 B` (40_crc32.md R79).
-/

namespace Sys2Proof.Machine

/-- The next command is issued when this one has responded (20_memory.md R40). -/
theorem execAll_cons_next {i : Instr} (is : List Instr) {s t : State} (h : exec i s = .next t) (hw : t.waiting = false) :
    execAll (i :: is) s = execAll is t := by
  simp only [execAll, h, andThen, hw]; rfl

/-- A run of `CRC_BYTE` commands folds its bytes into the register (40_crc32.md R76). -/
theorem execAll_bytes (bs : List Byte) (is : List Instr) (s : State) (hw : s.waiting = false) :
    ∃ o, o.length = s.outbox.length + bs.length ∧ execAll (bs.map .crcByte ++ is) s = execAll is { s with crc := crcFold s.crc bs, outbox := o } := by
  induction bs generalizing s with
  | nil => exact ⟨s.outbox, rfl, rfl⟩
  | cons b bs ih =>
    obtain ⟨o, ho, e⟩ := ih { s with crc := crcStep s.crc b, outbox := s.outbox ++ [{ status := statusOk, results := .none }] } hw
    refine ⟨o, by simp at ho; simp; omega, ?_⟩
    exact (execAll_cons_next _ (s := s) (i := .crcByte b) rfl hw).trans e

/-- What stands after the commands of `CRC32 B` starts from the register of `B` (40_crc32.md R79). -/
theorem execAll_crc32 (bs : List Byte) (is : List Instr) (s : State) (hw : s.waiting = false) :
    ∃ o, o.length = s.outbox.length + bs.length + 1 ∧ execAll (crc32Commands bs ++ is) s = execAll is { s with crc := crcFold crcInitial bs, outbox := o ++ [{ status := 0, results := .value (crc32 bs) }] } := by
  obtain ⟨o, ho, e⟩ := execAll_bytes bs (.crcRead :: is) { s with crc := crcInitial, outbox := s.outbox ++ [{ status := statusOk, results := .none }] } hw
  refine ⟨o, by simp at ho; omega, ?_⟩
  have e1 : execAll (crc32Commands bs ++ is) s = execAll (bs.map .crcByte ++ (.crcRead :: is)) { s with crc := crcInitial, outbox := s.outbox ++ [{ status := statusOk, results := .none }] } := by
    rw [crc32Commands, List.cons_append, List.append_assoc]
    exact execAll_cons_next _ (s := s) (i := .crcInit) rfl hw
  rw [e1, e]
  exact execAll_cons_next _ rfl hw

end Sys2Proof.Machine
end

