-- ==== Sys2Proof/Laws/Window.lean ====
section
/-!
SUPPORT. The window of the reassembler (42_reassembler.md R106): what a fill, a header read and a take do to a buffer that
holds consecutive bytes of the stream, and the bytes of a frame at the front of it (30_encoding.md R50).
-/

namespace Sys2Proof.Machine

/-- What the buffer holds depends on the buffer alone (20_memory.md R45). -/
theorem State.holds_congr {s t : State} {stream : List Byte} {p k : Nat} (h1 : t.buf = s.buf) (h2 : t.tape = s.tape)
    (h : s.holds stream p k) : t.holds stream p k := by
  intro i hi
  rw [State.bufByte_congr h1 h2]
  exact h i hi

/-- The first `n` bytes of a buffer that holds a piece of the stream (20_memory.md R45). -/
theorem State.holds_range {s : State} {stream : List Byte} {p k n : Nat} (h : s.holds stream p k) (hn : n ≤ k) :
    (List.range n).map s.bufByte = (stream.drop p).take n := by
  apply List.ext_getElem?
  intro i
  by_cases hi : i < n
  · have := h i (by omega)
    simp [hi, this]
  · have e1 : ((List.range n).map s.bufByte).length ≤ i := by simp; omega
    have e2 : ((stream.drop p).take n).length ≤ i := by simp; omega
    rw [List.getElem?_eq_none e1, List.getElem?_eq_none e2]

/-- A buffer that holds a non-empty piece of the stream lies inside it. -/
theorem State.holds_length {s : State} {stream : List Byte} {p k : Nat} (h : s.holds stream p k) (hk : 0 < k) : p + k ≤ stream.length := by
  have := h (k-1) (by omega)
  have := (List.getElem?_eq_some_iff.mp this).1
  omega

/-- A FILL WITH ENOUGH STREAM LEFT establishes the window at the same position and answers 0, whether it reads bytes or
the buffer was full already (42_reassembler.md R101, R106). -/
theorem State.retained_fill {s : State} {stream : List Byte} {p : Nat} (h : s.retained stream p)
    (hl : p + s.cap ≤ stream.length) :
    ∃ t, execRsmFill s = .next t ∧ t.windowFull stream p ∧ t.cap = s.cap ∧
      t.outbox = s.outbox ++ [{ status := 0, results := .none }] ∧
      s.srcQ.length = (s.cap - s.cursor) + t.srcQ.length := by
  obtain ⟨hf, hw, hc, hh, hq⟩ := h
  have ql : s.srcQ.length = stream.length - (p + s.cursor) := by rw [hq]; simp
  rcases Nat.lt_or_eq_of_le hc with hlt | heq
  · have ha : s.cap - s.cursor ≤ s.srcQ.length := by omega
    refine ⟨_, execRsmFill_reads hf hlt ha, ⟨hf, rfl, ?_, ?_⟩, rfl, rfl, ?_⟩
    · intro i hi
      have fb := State.fill_bytes (s := s) (t := { s with
        buf := s.buf.writeBytes s.cursor (s.srcQ.take (s.cap - s.cursor)) }) rfl rfl ha
      by_cases h1 : i < s.cursor
      · rw [hh i h1]
        exact congrArg some (fb.2 i (by omega)).symm
      · have := fb.1 (i - s.cursor) (by change i < s.cap at hi; omega)
        have e1 : p + s.cursor + (i - s.cursor) = p + i := by omega
        have e2 : s.cursor + (i - s.cursor) = i := by omega
        have e3 : s.srcQ[i - s.cursor]? = stream[p + i]? := by rw [hq, List.getElem?_drop, e1]
        rw [e3, e2] at this
        exact this
    · show s.srcQ.drop (s.cap - s.cursor) = stream.drop (p + s.cap)
      rw [hq, List.drop_drop]; congr 1; omega
    · show s.srcQ.length = _ + (s.srcQ.drop (s.cap - s.cursor)).length
      rw [List.length_drop]; omega
  · refine ⟨_, execRsmFill_full hf heq, ⟨hf, rfl, ?_, ?_⟩, rfl, rfl, ?_⟩
    · rw [heq] at hh; exact hh
    · rw [heq] at hq; exact hq
    · show s.srcQ.length = _ + s.srcQ.length
      omega

/-- The header read peeks at the stream's bytes `[p, p+16)` (42_reassembler.md R103). -/
theorem State.windowFull_hdr {s : State} {stream : List Byte} {p : Nat} (h : s.windowFull stream p) (hc : 16 ≤ s.cap) :
    ∃ hd, decodeHeader ((stream.drop p).take 16) = some hd ∧
      execRsmHdr s = .next { s with outbox := s.outbox ++ [{ status := 0, results := .fields hd }] } := by
  have e := State.holds_range h.2.2.1 hc
  have hd := decodeHeader_long (bs := (List.range 16).map s.bufByte) (by simp)
  refine ⟨_, ?_, execRsmHdr_reads h.1 hc hd⟩
  rw [← e]; exact hd

/-- A TAKE FROM THE WINDOW returns the stream's bytes `[p, p+n)` and retains the rest (42_reassembler.md R104). -/
theorem State.windowFull_take {s : State} {stream : List Byte} {p n : Nat} (h : s.windowFull stream p) (hn : n ≤ s.cap) :
    ∃ t, execRsmTake n s = .next t ∧ t.retained stream (p + n) ∧ t.cursor = s.cap - n ∧ t.cap = s.cap ∧
      t.outbox = s.outbox ++ [{ status := 0, results := .data ((stream.drop p).take n) }] ∧ t.srcQ = s.srcQ := by
  obtain ⟨hf, hw, hh, hq⟩ := h
  refine ⟨_, execRsmTake_takes hf hn, ⟨hf, hw, Nat.sub_le _ _, ?_, ?_⟩, rfl, rfl, ?_, rfl⟩
  · intro i hi
    change i < s.cap - n at hi
    have : (s.compact n).bufByte i = s.bufByte (i + n) := State.compact_bufByte s n i
    rw [show p + n + i = p + (i + n) by omega, hh (i + n) (by omega), ← this]
    rfl
  · show s.srcQ = stream.drop (p + n + (s.cap - n))
    rw [hq]; congr 1; omega
  · show s.outbox ++ _ = _
    rw [State.holds_range hh hn]

/-- A well-formed frame is `16 + compressed_length` bytes (30_encoding.md R50). -/
theorem frameLength_eq (f : Frame) (h : frameWellFormed f = true) : (frameBytes f).length = frameLength f := by
  simp [frameWellFormed] at h
  simp [frameBytes, frameLength, takeOperand, hdrLen, h]

/-- A frame starts with its header (30_encoding.md R50, R51). -/
theorem take16_frameBytes (f : Frame) (rest : List Byte) : (frameBytes f ++ rest).take 16 = encodeHeader f.header := by
  rw [frameBytes, List.append_assoc, List.take_append_of_le_length (by simp), List.take_of_length_le (by simp)]

/-- The first `16 + compressed_length` bytes of a stream that starts with a frame are the frame (30_encoding.md R52). -/
theorem take_frame (f : Frame) (rest : List Byte) (h : frameWellFormed f = true) : (frameBytes f ++ rest).take (takeOperand f.header.len) = frameBytes f := by
  have : (frameBytes f).length = takeOperand f.header.len := frameLength_eq f h
  rw [← this, List.take_left']; rfl

/-- What follows the 16 header bytes of a frame is its payload (42_reassembler.md R107). -/
theorem slice_frame (f : Frame) (h : frameWellFormed f = true) : slice (frameBytes f) hdrLen (takeOperand f.header.len) = f.payload := by
  simp [frameWellFormed] at h
  rw [slice, frameBytes, List.drop_append, List.drop_of_length_le (by simp [hdrLen])]
  simp [hdrLen, takeOperand, ← h]

end Sys2Proof.Machine
end

