-- ==== Sys2Proof/Machine/Session.lean ====
section
/-!
DEFINITION. A session with two stream directions: two instances that share no state (00_scope.md R1, 60_exceptions.md R134; log 20).
-/

namespace Sys2Proof.Machine

/-- The two instances of a session (60_exceptions.md R134). -/
structure Session where
  sender : State
  receiver : State
  deriving DecidableEq, Repr

/-- One step of the sending direction's instance; the other instance is not touched (60_exceptions.md R134). -/
def stepSender (x : Session) : Host.Outcome Session Fault Refusal :=
  match step x.sender with
  | .next t => .next { x with sender := t }
  | .fault f => .fault f
  | .refused r => .refused r

/-- One step of the receiving direction's instance; the other instance is not touched (60_exceptions.md R134). -/
def stepReceiver (x : Session) : Host.Outcome Session Fault Refusal :=
  match step x.receiver with
  | .next t => .next { x with receiver := t }
  | .fault f => .fault f
  | .refused r => .refused r

end Sys2Proof.Machine
end

