-- ==== Sys2Proof/Tests/Slice0.lean ====
section
/-!
SUPPORT. Tests of single commands against the vectors of 95_test_vectors.md, ill-formed terms refused, opcode words written
out, and for every statement with hypotheses a concrete case that meets them.
-/

namespace Sys2Proof.Tests
open Sys2Proof.Machine

/-- A small instance: capacity, cursor, the known bytes at the front of the buffer, the pending bytes. -/
def bench (cap cursor : Nat) (buf q : List Byte) : State where
  cap := cap
  crc := 0xFFFFFFFF
  buf := Memory.cells 0 buf
  tape := 0
  cursor := cursor
  fault := 0
  srcQ := q
  srcClosed := false
  waiting := false
  inbox := []
  outbox := []
  draws := 1

/-- What `f` sees in the next state, if there is one. -/
def seen {α : Type} (f : State → α) (o : Host.Outcome State Fault Refusal) : Option α :=
  match o with
  | .next s => some (f s)
  | .fault _ => none
  | .refused _ => none

/-- The last response given. -/
def answer (o : Host.Outcome State Fault Refusal) : Option Response :=
  (seen State.lastResponse o).getD none

/-- Frame A of V-RSM-1: 20 bytes. -/
def frameA : List Byte :=
  [0x00, 0x00, 0x00, 0x04, 0x00, 0x00, 0x00, 0x00, 0x00, 0x00, 0x00, 0x07, 0x7C, 0x9C, 0xA3, 0x5A] ++
  [0xDE, 0xAD, 0xBE, 0xEF]

/-- Frame B of V-RSM-1: 26 bytes. -/
def frameB : List Byte :=
  [0x00, 0x00, 0x00, 0x0A, 0x00, 0x00, 0x00, 0x00, 0x00, 0x00, 0x00, 0x08, 0x60, 0x8F, 0xBE, 0x85] ++
  [0xA0, 0xA1, 0xA2, 0xA3, 0xA4, 0xA5, 0xA6, 0xA7, 0xA8, 0xA9]

/-- The silence marker with frame id `k`: 16 bytes (V-RSM-5). -/
def marker (k : Byte) : List Byte :=
  [0x00, 0x00, 0x00, 0x00, 0x00, 0x00, 0x00, 0x00, 0x00, 0x00, 0x00, k, 0x00, 0x00, 0x00, 0x00]

/-- A window of 48 bytes: A, B and the first two bytes of what follows (V-RSM-1 after step 1). -/
def window : State := bench 48 0 (frameA ++ frameB ++ [0x00, 0x00]) []

/-- The smallest instance, its buffer holding the marker with id 1 (V-RSM-5, P5). -/
def smallest (q : List Byte) : State := bench 16 0 (marker 1) q

/-- A fill waits for 16 bytes and 15 are pending. -/
def starved : State := { bench 16 0 [] ((marker 1).take 15) with waiting := true }

/-! ### Well-formedness refuses ill-formed terms -/

/-- R61: 0x23 is reserved. -/
theorem test_reserved_command_ill_formed :
    Command.WellFormed { opcode := 0x23, ports := Ports.idle } = false := by decide

/-- R58: 0x22 is assigned. -/
theorem test_assigned_command_well_formed :
    Command.WellFormed { opcode := 0x22, ports := Ports.idle } = true := by decide

/-- R2: a capacity below 16 is refused, 16 is accepted. -/
theorem test_capacity : capacityWellFormed 15 = false ∧ capacityWellFormed 16 = true := by decide

/-- R50: a payload shorter than `compressed_length` is no frame. -/
theorem test_frame_payload_length :
    frameWellFormed { header := { len := 2, fid := 0, csum := 0 }, payload := [0xAA] } = false ∧
    frameWellFormed { header := { len := 1, fid := 0, csum := 0 }, payload := [0xAA] } = true := by decide

/-- R55: with `CAP = 48` the longest payload is 32. -/
theorem test_unrepresentable : unrepresentable 48 33 = true ∧ unrepresentable 48 32 = false := by decide

/-- R59: the ranges of the operands at their upper ends. -/
theorem test_operands_well_formed :
    Instr.WellFormed (.crcByte 0xFF) = true ∧ Instr.WellFormed (.hdrEnc 0xFFFFFFFF 0xFFFFFFFFFFFFFFFF 0xFFFFFFFF) = true := by
  decide

/-! ### Decoding: the opcode byte of R58 written out bit by bit -/

/-- CRC family: `CRC_BYTE` is 0000 0010 with `b` on its port. -/
theorem test_decode_crc_byte :
    decode { opcode := 0b00000010, ports := { Ports.idle with b := 0x61 } } = .instr (.crcByte 0x61) := by decide

/-- CRC family: `CRC_CHECK` is 0000 0100 with `exp` on its port. -/
theorem test_decode_crc_check :
    decode { opcode := 0b00000100, ports := { Ports.idle with exp := 0xCBF43926 } } = .instr (.crcCheck 0xCBF43926) := by
  decide

/-- HDR family: `HDR_ENC` is 0001 0000 with `len`, `fid`, `csum` on their ports (P3 step 6). -/
theorem test_decode_hdr_enc :
    decode { opcode := 0b00010000, ports := { Ports.idle with len := 1, fid := 2, csum := 3 } } =
      .instr (.hdrEnc 1 2 3) := by decide

/-- RSM family: `RSM_TAKE` is 0010 0010 with `n` on its port, wider than 32 bits (V-RSM-3). -/
theorem test_decode_rsm_take :
    decode { opcode := 0b00100010, ports := { Ports.idle with n := 4294967311 } } = .instr (.rsmTake 4294967311) := by
  decide

/-- R61: the neighbours of the assigned opcodes are reserved. -/
theorem test_decode_reserved :
    [0x00#8, 0x05#8, 0x0F#8, 0x12#8, 0x1F#8, 0x23#8, 0xFF#8].map (fun o => decode { opcode := o, ports := Ports.idle }) =
      [.reserved 0x00, .reserved 0x05, .reserved 0x0F, .reserved 0x12, .reserved 0x1F, .reserved 0x23, .reserved 0xFF] := by
  decide

/-- R58: the table's words decode to the table's rows, and a word that is not 8 bits to none. -/
theorem test_table_words :
    [0x01, 0x02, 0x03, 0x04, 0x10, 0x11, 0x20, 0x21, 0x22].map (decodeTableWord 8) =
      [some .crcInit, some (.crcByte 0), some .crcRead, some (.crcCheck 0), some (.hdrEnc 0 0 0), some (.hdrDec []),
       some .rsmFill, some .rsmHdr, some (.rsmTake 0)] ∧
    decodeTableWord 16 0x01 = none := by decide

/-- A placed word is what the next step runs: `CRC_INIT` right after reset (V-CRC-20). -/
theorem test_step_runs_placed_word :
    seen (fun t => (t.crc, t.inbox)) (step (State.reset.withFetchWord 8 0x01)) = some (0xFFFFFFFF, []) := by decide

/-! ### Unit CRC -/

/-- V-CRC-20: `CRC_INIT` from any register. -/
theorem test_crc_init : seen State.crc (exec .crcInit { window with crc := 0x12345678 }) = some 0xFFFFFFFF := by decide

/-- V-CRC-21, V-CRC-22: `CRC_BYTE 0x61` from all ones, `CRC_BYTE 0x63` in mid-block. -/
theorem test_crc_byte :
    seen State.crc (exec (.crcByte 0x61) window) = some 0x174841BC ∧
    seen State.crc (exec (.crcByte 0x63) { window with crc := 0x617CB792 }) = some 0xCADBBE3D := by decide

/-- V-CRC-25: `CRC_READ` ignores the latch. -/
theorem test_crc_read_latched :
    answer (exec .crcRead { window with crc := 0xCADBBE3D, fault := 3 }) =
      some { status := 0, results := .value 0x352441C2 } := by decide

/-- V-CRC-23, V-CRC-24: a match and a mismatch, both with status 0. -/
theorem test_crc_check :
    answer (exec (.crcCheck 0x352441C2) { window with crc := 0xCADBBE3D }) =
      some { status := 0, results := .check true 0x352441C2 } ∧
    answer (exec (.crcCheck 0x00000000) { window with crc := 0xCADBBE3D }) =
      some { status := 0, results := .check false 0x352441C2 } := by decide

/-- V-CRC-27: four entries of the table. -/
theorem test_crc_table :
    [0x00, 0x01, 0x80, 0xFF].map (fun i => crcTable[i]?) =
      [some 0x00000000, some 0x77073096, some 0xEDB88320, some 0x2D02EF8D] := by decide +kernel

/-- V-CRC-2, V-CRC-9: checksums of one and of four bytes. -/
theorem test_crc32_vectors :
    crc32 [0x00] = 0xD202EF8D ∧ crc32 [0xDE, 0xAD, 0xBE, 0xEF] = 0x7C9CA35A := by decide +kernel

/-! ### Unit HDR -/

/-- V-HDR-4. -/
theorem test_hdr_enc :
    answer (exec (.hdrEnc 9 0x1122334455667788 0xCBF43926) window) =
      some (Response.mk 0 (.hdr
        [0x00, 0x00, 0x00, 0x09, 0x11, 0x22, 0x33, 0x44, 0x55, 0x66, 0x77, 0x88, 0xCB, 0xF4, 0x39, 0x26])) := by decide

/-- V-HDR-12: the top bit of a field is value, not sign. -/
theorem test_hdr_dec_unsigned :
    answer (exec (.hdrDec
        [0x80, 0x00, 0x00, 0x00, 0x80, 0x00, 0x00, 0x00, 0x00, 0x00, 0x00, 0x00, 0x80, 0x00, 0x00, 0x00]) window) =
      some (Response.mk 0 (.fields
        { len := 2147483648, fid := 9223372036854775808, csum := 0x80000000 })) := by decide

/-- V-HDR-10, V-HDR-11: 15 bytes are refused and nothing is latched; the bytes from the 17th on are ignored. -/
theorem test_hdr_dec_lengths :
    seen (fun t => (t.fault, t.lastResponse)) (exec (.hdrDec ((marker 2).take 15)) window) =
      some (0, some { status := 1, results := .none }) ∧
    answer (exec (.hdrDec
        ([0x00, 0x00, 0x00, 0x01, 0x00, 0x00, 0x00, 0x00, 0x00, 0x00, 0x00, 0x02, 0x00, 0x00, 0x00, 0x03] ++
          [0xAA, 0xBB])) window) =
      some { status := 0, results := .fields { len := 1, fid := 2, csum := 3 } } := by decide

/-! ### Unit RSM -/

/-- P5 step 3: a fill directly after a fill reads 16 more bytes. -/
theorem test_rsm_fill :
    seen (fun t => (t.cursor, t.srcQ, t.bufByte 11)) (exec .rsmFill (smallest (marker 2 ++ marker 3))) =
      some (0, marker 3, 0x02) := by decide

/-- V-RSM-1 step 4: the fill after a take of 20 writes from offset 28 on and reads 20 bytes. -/
theorem test_rsm_fill_after_take :
    seen (fun t => (t.cursor, t.srcQ, t.bufByte 27, t.bufByte 28, t.bufByte 47))
      (exec .rsmFill (bench 48 28 (frameB ++ [0x00, 0x00]) (List.replicate 20 0x5A ++ [0x77]))) =
      some (0, [0x77], 0x00, 0x5A, 0x5A) := by decide +kernel

/-- V-RSM-1 step 2: the header of A. -/
theorem test_rsm_hdr :
    answer (exec .rsmHdr window) =
      some { status := 0, results := .fields { len := 4, fid := 7, csum := 0x7C9CA35A } } := by decide +kernel

/-- V-RSM-4: the latch answers `RSM_HDR`. -/
theorem test_rsm_hdr_latched :
    answer (exec .rsmHdr { window with fault := 3 }) = some { status := 3, results := .none } := by decide

/-- V-RSM-1 step 3: the take of A, with B at the front afterwards. -/
theorem test_rsm_take :
    seen (fun t => (t.cursor, t.lastResponse, t.bufByte 3)) (exec (.rsmTake 20) window) =
      some (28, some { status := 0, results := .data frameA }, 0x0A) := by decide +kernel

/-- V-RSM-3: one byte too many, and an operand that must not be reduced to 15. -/
theorem test_rsm_take_overflow :
    seen (fun t => (t.cursor, t.fault, t.lastResponse)) (exec (.rsmTake 49) window) =
      some (0, 3, some { status := 3, results := .none }) ∧
    answer (exec (.rsmTake (takeOperand 0xFFFFFFFF)) window) = some { status := 3, results := .none } := by decide

/-- V-RSM-4: opcode 0x23 answers 7 and leaves the latch. -/
theorem test_bad_command :
    seen (fun t => (t.fault, t.lastResponse))
      (step { window with fault := 3, inbox := [.command { opcode := 0x23, ports := Ports.idle }] }) =
      some (3, some { status := 7, results := .none }) := by decide

/-- V-RSM-4: after reset the latch and the cursor are 0. -/
theorem test_reset_event :
    seen (fun t => (t.fault, t.cursor)) (step { window with fault := 3, cursor := 5, inbox := [.reset] }) =
      some (0, 0) := by decide

/-- R20: bytes on a closed stream are no input of the environment. -/
theorem test_arrival_after_close :
    step { window with srcClosed := true, inbox := [.env (.arrive [0x01])] } = .fault .arrivalAfterClose := rfl

/-- R134: the other direction's instance is not touched. -/
theorem test_session :
    (match stepSender { sender := { window with inbox := [.reset] }, receiver := window } with
      | .next x => some (x.receiver == window)
      | .fault _ => none
      | .refused _ => none) = some true := by decide +kernel

/-! ### Witnesses: for each statement with hypotheses, concrete values that meet them, and boundary values of its clauses -/

/-- An act leads to a next state. -/
def goesOn (o : Host.Outcome State Fault Refusal) : Prop := ∃ t, o = .next t

theorem witness_CrcStepEqualsTableForm :
    (255 : Nat) < 256 ∧ crcTable[255]? = some (crcStep 0 (BitVec.ofNat 8 255)) := by decide +kernel

theorem witness_Crc32PseudoCommandGivesCrc32 :
    window.waiting = false ∧ (seen State.lastResponse (execAll (crc32Commands [0x00]) window)) =
      some (some { status := 0, results := .value 0xD202EF8D }) := by decide +kernel

theorem witness_CrcRegisterFollowsItsOwnCommands :
    seen (fun t => (t.waiting, t.crc)) (execAll [.crcInit, .rsmHdr, .crcByte 0x61] window) =
      some (false, 0x174841BC) := by decide +kernel

/-- V-CRC-9 and V-CRC-14 differ in their last byte. -/
theorem witness_CrcSingleByteSensitive :
    (0xEF : Byte) ≠ 0xEE ∧ crc32 ([0xDE, 0xAD, 0xBE] ++ 0xEF :: []) = 0x7C9CA35A ∧
      crc32 ([0xDE, 0xAD, 0xBE] ++ 0xEE :: []) = 0x0B9B93CC := by decide +kernel

/-- The first and the last bit of every field, by R51's table: bit 7 of bytes 0, 4, 12 and bit 0 of bytes 3, 11, 15. -/
theorem witness_HeaderBitLayout :
    encodeHeader { len := 0x80000000, fid := 0x8000000000000000, csum := 0x80000000 } =
      [0x80, 0, 0, 0, 0x80, 0, 0, 0, 0, 0, 0, 0, 0x80, 0, 0, 0] ∧
    encodeHeader { len := 1, fid := 1, csum := 1 } = [0, 0, 0, 1, 0, 0, 0, 0, 0, 0, 0, 1, 0, 0, 0, 1] := by decide

/-- The two clauses at their boundary: 15 bytes and 16 bytes. -/
theorem witness_HdrDecReadsFields : ((marker 2).take 15).length < 16 ∧ 16 ≤ (marker 2).length := by decide

theorem witness_HeaderEncodeDecodeInverse : (marker 2).length = 16 := by decide

theorem witness_BigEndianInverse :
    256 ^ 4 - 1 < 256 ^ 4 ∧ be 4 (256 ^ 4 - 1) = [0xFF, 0xFF, 0xFF, 0xFF] ∧
    unbe [0x01, 0x02, 0x03, 0x04] = 0x01020304 := by decide

theorem witness_HdrCommandsArePure :
    isCrc (.hdrEnc 1 2 3) = false ∧ isRsm (.hdrEnc 1 2 3) = false ∧
    isCrc (.hdrDec []) = false ∧ isRsm (.hdrDec []) = false := by decide

/-- Exactly the missing bytes are pending. -/
theorem witness_FillReadsMissingBytes :
    (bench 16 15 [] [0x01]).fault = 0 ∧ (bench 16 15 [] [0x01]).cursor < (bench 16 15 [] [0x01]).cap ∧
    (bench 16 15 [] [0x01]).cap - (bench 16 15 [] [0x01]).cursor ≤ (bench 16 15 [] [0x01]).srcQ.length := by decide

theorem witness_FillOnFullBufferIsNoop :
    (bench 16 16 (marker 1) []).fault = 0 ∧ (bench 16 16 (marker 1) []).cursor = (bench 16 16 (marker 1) []).cap := by
  decide

/-- One byte too few on a closed stream. -/
theorem witness_FillShortReadLatches :
    let s := { starved with waiting := false, srcClosed := true }
    s.fault = 0 ∧ s.cursor < s.cap ∧ s.srcQ.length < s.cap - s.cursor ∧ s.srcClosed = true := by decide

/-- Both sides: a starved closed stream, and one with just enough. -/
theorem witness_ShortReadExactlyWhenStarvedAndClosed :
    let s := { starved with waiting := false, srcClosed := true }
    let u := { s with srcQ := marker 1 }
    s.fault = 0 ∧ s.cursor ≤ s.cap ∧ seen State.fault (exec .rsmFill s) = some 2 ∧
    u.fault = 0 ∧ u.cursor ≤ u.cap ∧ seen State.fault (exec .rsmFill u) = some 0 := by decide +kernel

theorem witness_FillWaitsForTheEnvironment :
    let s := { starved with waiting := false }
    s.fault = 0 ∧ s.cursor < s.cap ∧ s.srcQ.length < s.cap - s.cursor ∧ s.srcClosed = false := by decide

/-- The three clauses: the smallest capacity, one below it, a latched fault. -/
theorem witness_HdrPeeksWithoutConsuming :
    ((smallest []).fault = 0 ∧ 16 ≤ (smallest []).cap) ∧
    ((bench 15 0 [] []).fault = 0 ∧ (bench 15 0 [] []).cap < 16) ∧
    { smallest [] with fault := 3 }.fault ≠ 0 := by decide

/-- The three clauses: `n = CAP`, `n = CAP + 1`, a latched fault. -/
theorem witness_TakeReturnsAndCompacts :
    (window.fault = 0 ∧ 48 ≤ window.cap) ∧ (window.fault = 0 ∧ window.cap < 49) ∧
    { window with fault := 2 }.fault ≠ 0 := by decide

/-- `len = CAP - 16` fits, `len = CAP - 15` does not. -/
theorem witness_TakeRejectsUnrepresentableFrame :
    16 ≤ window.cap ∧ window.fault = 0 ∧ ¬ window.cap - 16 < (32 : BitVec 32).toNat ∧
    window.cap - 16 < (33 : BitVec 32).toNat := by decide

theorem witness_LatchedFaultAnswersRsmCommands :
    isRsm (.rsmTake 49) = true ∧ { window with fault := 2 }.fault ≠ 0 ∧ { window with fault := 2 }.waiting = false := by
  decide

/-- The clauses: a fault raised, a fault kept, a command of another unit. -/
theorem witness_FaultWrittenOnceByRsmOnly :
    seen State.fault (exec (.rsmTake 49) window) = some 3 ∧
    seen State.fault (exec (.rsmTake 49) { window with fault := 2 }) = some 2 ∧
    isRsm .crcInit = false ∧ goesOn (exec .crcInit { window with fault := 2 }) :=
  ⟨by decide, by decide, rfl, _, rfl⟩

/-- Both clauses: a latched reassembler, an unlatched one; and a reserved opcode. -/
theorem witness_FaultsEachCommandCanReport :
    16 ≤ window.cap ∧ { window with fault := 2 }.fault ≠ 0 ∧
    seen State.outbox (exec (.rsmTake 49) { window with fault := 2 }) =
      some (window.outbox ++ [{ status := 2, results := .none }]) ∧
    seen State.outbox (exec (.rsmTake 49) window) = some (window.outbox ++ [{ status := 3, results := .none }]) ∧
    (0x23 : BitVec 8) ∉ assignedOpcodes := by decide

theorem witness_OnlyResetClearsFault :
    let s := { window with fault := 3, inbox := [.reset] }
    s.fault ≠ 0 ∧ seen (fun t => decide (t.fault ≠ s.fault)) (step s) = some true := by decide

theorem witness_CrcAndHdrCommandsFrame :
    goesOn (exec .crcRead window) ∧ Instr.crcRead ≠ .crcInit ∧ (∀ b, Instr.crcRead ≠ .crcByte b) ∧
    isRsm .crcRead = false :=
  ⟨⟨_, rfl⟩, by decide, fun _ h => (nomatch h), rfl⟩

theorem witness_RsmCommandsFrame :
    isRsm .rsmFill = true ∧ goesOn (exec .rsmHdr window) ∧ goesOn (exec .rsmFill (smallest (marker 2))) ∧
    goesOn (exec (.rsmTake 20) window) :=
  ⟨rfl, ⟨_, rfl⟩, ⟨_, rfl⟩, _, rfl⟩

theorem witness_OnlyFillConsumesTheStream :
    goesOn (exec .rsmHdr window) ∧ Instr.rsmHdr ≠ .rsmFill ∧
    seen State.srcQ (exec .rsmFill (smallest (marker 2 ++ [0x77]))) = some [0x77] :=
  ⟨⟨_, rfl⟩, by decide, by decide +kernel⟩

theorem witness_EveryCommandCompletesOrFillWaits :
    (bench 16 16 (marker 1) []).cursor ≤ (bench 16 16 (marker 1) []).cap ∧
    seen State.waiting (exec .rsmFill { starved with waiting := false }) = some true := by decide +kernel

theorem witness_ReservedOpcodesAnswerBadCmd :
    let c : Command := { opcode := 0x23, ports := Ports.idle }
    let s := { window with inbox := [.command c] }
    c.opcode ∉ assignedOpcodes ∧ s.waiting = false ∧ s.inbox = .command c :: [] := by decide

theorem witness_OpcodeBytesDecode : (0x00 : BitVec 8) ∉ assignedOpcodes ∧ (0xFF : BitVec 8) ∉ assignedOpcodes := by decide

theorem witness_StepRunsDecodedCommand :
    let c : Command := { opcode := 0x22, ports := { Ports.idle with n := 20 } }
    let s := { window with inbox := [.command c] }
    s.waiting = false ∧ s.inbox = .command c :: [] ∧ decode c = .instr (.rsmTake 20) := by decide

theorem window_inv : window.Inv where
  cap_ge := by decide
  cursor_le := by decide
  buf_ok := ⟨by decide +kernel, by decide +kernel⟩
  fault_ne := by decide
  waiting_ok := by decide
  outbox_ok := by intro r hr; cases hr

/-- A state with the invariant and an input, from which a step leads on. -/
theorem witness_StepKeepsInvariant :
    window.Inv ∧ goesOn (step window) ∧ goesOn (step { window with inbox := [.reset] }) :=
  ⟨window_inv, ⟨_, rfl⟩, _, rfl⟩

/-- The two cases: between commands, and while a fill waits. -/
theorem witness_ResetEventEffect :
    let s := { window with inbox := [.reset] }
    let u := { starved with inbox := [.reset] }
    (s.inbox = .reset :: [] ∧ s.waiting = false) ∧ (u.inbox = .reset :: [] ∧ u.fillBlocked = true) := by decide

/-- A stream of five bytes arriving as two, none, and three. -/
theorem witness_ChunkingInvisible :
    let chunks : List (List Byte) := [[0x01, 0x02], [], [0x03, 0x04, 0x05]]
    let s := { window with inbox := chunks.map (fun bs => .env (.arrive bs)) }
    s.waiting = false ∧ s.srcClosed = false ∧ s.inbox = chunks.map (fun bs => .env (.arrive bs)) ++ [] ∧
    seen State.srcQ (Host.Core.run core 3 s) = some [0x01, 0x02, 0x03, 0x04, 0x05] := by decide

theorem witness_WaitingFillHasNoTimeout :
    let c : Command := { opcode := 0x01, ports := Ports.idle }
    let s := { starved with inbox := [.command c] }
    s.waiting = true ∧ s.fault = 0 ∧ s.cursor < s.cap ∧ s.srcQ.length < s.cap - s.cursor ∧ s.srcClosed = false ∧
      (∀ e ∈ s.inbox, ∃ c, e = .command c) :=
  ⟨rfl, rfl, by decide, by decide, rfl, by intro e he; exact ⟨_, List.mem_singleton.mp he⟩⟩

/-- The one missing byte arrives. -/
theorem witness_ArrivalLetsWaitingFillComplete :
    let s := { starved with inbox := [.env (.arrive [0x00])] }
    s.waiting = true ∧ s.fault = 0 ∧ s.cursor < s.cap ∧ s.srcQ.length < s.cap - s.cursor ∧ s.srcClosed = false ∧
      s.inbox = .env (.arrive [0x00]) :: [] ∧ s.cap - s.cursor ≤ s.srcQ.length + [(0x00 : Byte)].length := by decide

theorem witness_WaitingInstanceAcceptsNoCommand :
    let s := { starved with inbox := [.command { opcode := 0x01, ports := Ports.idle }, .env .close] }
    s.waiting = true ∧ s.fillBlocked = true ∧ seen (fun t => t.inbox.length) (step s) = some 1 := by decide

theorem witness_PendingBytesStayUntilAFill :
    let s := { window with srcQ := [0x01], inbox := [.env (.arrive [0x02])] }
    s.waiting = false ∧ (∀ c rest, s.inbox = .command c :: rest → decode c ≠ .instr .rsmFill) ∧
      seen State.srcQ (step s) = some [0x01, 0x02] :=
  ⟨rfl, fun _ _ h => (nomatch h), by decide⟩

theorem witness_ClosedAndCapacityArePermanent :
    let s := { window with srcClosed := true, inbox := [.reset] }
    s.srcClosed = true ∧ goesOn (step s) :=
  ⟨rfl, _, rfl⟩

/-- The window of `smallest` in a stream of the markers 1, 2, 3. -/
theorem smallest_windowFull : (smallest (marker 2 ++ marker 3)).windowFull (marker 1 ++ marker 2 ++ marker 3) 0 := by
  refine ⟨rfl, rfl, ?_, rfl⟩
  unfold State.holds
  decide +kernel

theorem witness_TakeThenFillThenHeader :
    let s := smallest (marker 2 ++ marker 3)
    16 ≤ s.cap ∧ s.windowFull (marker 1 ++ marker 2 ++ marker 3) 0 ∧ 16 ≤ s.cap ∧
      0 + 16 + s.cap ≤ (marker 1 ++ marker 2 ++ marker 3).length :=
  ⟨by decide, smallest_windowFull, by decide, by decide⟩

/-- A conforming run with bytes arriving between its commands; the account after it (V-RSM-5). -/
def shortRun : List Act :=
  [.env (.arrive (marker 1)), .command .rsmFill, .command .rsmHdr, .env (.arrive (marker 2)), .command (.rsmTake 16)]

theorem witness_ConservationForConformingRuns :
    let s := bench 16 0 [] []
    s.fault = 0 ∧ s.cursor = 0 ∧ s.waiting = false ∧ conforms false shortRun = some false ∧
      (runLedger shortRun s { read := 0, consumed := 0, buffered := 0 }).map Prod.snd =
        some { read := 16, consumed := 16, buffered := 0 } := by decide +kernel

/-- Both clauses: a run that ends after a take, and one that ends after a fill. -/
theorem witness_WindowPosition :
    let s := bench 16 0 [] []
    s.fault = 0 ∧ s.cursor = 0 ∧ s.waiting = false ∧ conforms false shortRun = some false ∧
      conforms false (shortRun ++ [.command .rsmFill]) = some true ∧
      (runLedger (shortRun ++ [.command .rsmFill]) s { read := 0, consumed := 0, buffered := 0 }).map Prod.snd =
        some { read := 32, consumed := 16, buffered := 16 } := by decide +kernel

/-- P1 to P5's smallest frames: two markers through a 16-byte window; the second is delivered (V-RSM-5). -/
theorem witness_DemuxDeliversFramesInOrder :
    let fs := [silenceMarker 1 0, silenceMarker 2 0]
    let s := bench 16 0 [] (marker 1 ++ marker 2)
    16 ≤ s.cap ∧ s.fault = 0 ∧ s.cursor = 0 ∧ s.waiting = false ∧ s.srcQ = streamOf fs ++ [] ∧
      (∀ g ∈ fs, frameWellFormed g = true ∧ g.header.len.toNat ≤ s.cap - 16) ∧ fs[1]? = some (silenceMarker 2 0) ∧
      (streamOf (fs.take 1)).length + s.cap ≤ s.srcQ.length := by decide +kernel

/-- After reset `retained` holds at position 0 whatever is pending. -/
theorem reset_retained (cap : Nat) (q : List Byte) : (bench cap 0 [] q).retained q 0 :=
  ⟨rfl, rfl, Nat.zero_le _, by intro i hi; exact absurd hi (Nat.not_lt_zero i), rfl⟩

theorem witness_SilenceMarkerDelivered :
    16 ≤ (bench 16 0 [] (marker 9)).cap ∧ (bench 16 0 [] (marker 9)).retained (marker 9) 0 ∧
      0 + (bench 16 0 [] (marker 9)).cap ≤ (marker 9).length ∧
      ((marker 9).drop 0).take 16 = frameBytes (silenceMarker 9 0) :=
  ⟨by decide, reset_retained 16 _, by decide, by decide⟩

/-- Both clauses: one byte less than a window, on an open and on a closed stream. -/
theorem witness_FramesHeldBackAtStreamEnd :
    let s := bench 16 0 [] ((marker 9).take 15)
    s.retained ((marker 9).take 15) 0 ∧ 0 + s.cursor ≤ ((marker 9).take 15).length ∧
      ((marker 9).take 15).length < 0 + s.cap ∧ s.srcClosed = false ∧
      { s with srcClosed := true }.retained ((marker 9).take 15) 0 :=
  ⟨reset_retained 16 _, by decide, by decide, rfl, reset_retained 16 _⟩

theorem witness_FillAfterFillLosesTheWindow :
    let s := bench 16 0 [] (marker 1 ++ marker 2)
    s.fault = 0 ∧ s.cursor < s.cap ∧ s.cap - s.cursor + s.cap ≤ s.srcQ.length := by decide

theorem witness_TakeAfterTakeReturnsOldBytesAndSetsCursor : window.fault = 0 ∧ 20 ≤ window.cap ∧ 48 ≤ window.cap := by decide

theorem witness_FrameStreamDecodes :
    ∀ f ∈ [silenceMarker 1 0, { header := { len := 1, fid := 0, csum := 0 }, payload := [0xAA] }],
      frameWellFormed f = true := by decide

/-- P1: the frame of "abc" with the last frame id. -/
theorem witness_FramePseudoCommandBuildsFrame :
    let abc : List Byte := [0x61, 0x62, 0x63]
    window.waiting = false ∧ abc.length < 2 ^ 32 ∧
    (match runFrame 0xFFFFFFFFFFFFFFFF abc abc window with
      | .next p => p.2
      | .fault _ => none
      | .refused _ => none) =
      some ([0x00, 0x00, 0x00, 0x03, 0xFF, 0xFF, 0xFF, 0xFF, 0xFF, 0xFF, 0xFF, 0xFF, 0x35, 0x24, 0x41, 0xC2] ++
        [0x61, 0x62, 0x63]) := by decide +kernel

/-- P2 steps 4 to 9, with the codec that changes nothing. -/
theorem witness_ReceiveCompletionReportsChecksum :
    let d : Delivered := { header := { len := 4, fid := 7, csum := 0x7C9CA35A }, payload := [0xDE, 0xAD, 0xBE, 0xEF]
                           silence := false }
    window.waiting = false ∧ d.silence = false ∧ some d.payload = some [0xDE, 0xAD, 0xBE, 0xEF] ∧
    seen State.lastResponse (execAll (receiveCompletion some [] [] d).1 window) =
      some (some { status := 0, results := .check true 0x7C9CA35A }) := by decide +kernel

theorem witness_FrameIdWrapsToZero : (0xFFFFFFFFFFFFFFFF : BitVec 64).toNat = 2 ^ 64 - 1 := by decide

end Sys2Proof.Tests
end

/-! ## Scope: what every step keeps, waiting, byte order (00_scope.md R2, R6, R7) -/

namespace Sys2Proof.Machine

/-! ### Responses that a command may give (60_exceptions.md R120, 30_encoding.md R60) -/

/-- A completed command may answer any result. -/
theorem Response.legal_ok (r : Results) : Response.legal { status := 0, results := r } :=
  ⟨show (0 : BitVec 4) ∈ producedStatuses by decide, fun h => absurd rfl h⟩

/-- Without a result every produced status is legal. -/
theorem Response.legal_none {st : BitVec 4} (h : st ∈ producedStatuses) :
    Response.legal { status := st, results := .none } :=
  ⟨h, fun _ => rfl⟩

/-- Every value of the latch is reported by a produced status. -/
theorem statusOfFault_mem_producedStatuses (f : BitVec 2) : statusOfFault f ∈ producedStatuses := by
  revert f
  decide

/-! ### Updates of the state that keep the invariant -/

/-- Writing inside the buffer keeps its form. -/
theorem State.BufOk.writeBytes {s : State} (h : s.BufOk) {a : Nat} {bs : List Byte} (ha : a + bs.length ≤ s.cap) :
    { s with buf := s.buf.writeBytes a bs }.BufOk :=
  ⟨Memory.wf_writeBytes h.1 a bs, Memory.bound_writeBytes h.2 ha⟩

/-- The compaction keeps the buffer's form. -/
theorem State.BufOk.compact {s : State} (h : s.BufOk) (n : Nat) : (s.compact n).BufOk :=
  ⟨Memory.wf_shiftDown h.1 n, Memory.bound_shiftDown h.2 n⟩

/-- The register `crc` and the inputs to come are outside the invariant. -/
theorem State.Inv.withCrcInbox {s : State} (h : s.Inv) (c : BitVec 32) (es : List Event) :
    { s with crc := c, inbox := es }.Inv :=
  { h with }

/-- The stream and the count of free values are outside the invariant. -/
theorem State.Inv.withStream {s : State} (h : s.Inv) (q : List Byte) (closed : Bool) (n : Nat) :
    { s with srcQ := q, srcClosed := closed, draws := n }.Inv :=
  { h with }

/-- Giving a legal response keeps the invariant. -/
theorem State.Inv.answer {s : State} (h : s.Inv) {r : Response} (hr : r.legal) :
    { s with outbox := s.outbox ++ [r] }.Inv :=
  { h with
    outbox_ok := fun r' hr' => by
      rcases List.mem_append.mp hr' with hold | hnew
      · exact h.outbox_ok r' hold
      · rwa [List.mem_singleton.mp hnew] }

/-- A fill may always stop waiting. -/
theorem State.Inv.endWait {s : State} (h : s.Inv) : { s with waiting := false }.Inv :=
  { h with waiting_ok := fun hw => nomatch hw }

/-- A blocked fill may wait: nothing is latched and the buffer is not full. -/
theorem State.Inv.beginWait {s : State} (h : s.Inv) (hb : s.fillBlocked = true) : { s with waiting := true }.Inv := by
  obtain ⟨hf, hne, -, -⟩ := (State.fillBlocked_iff s).mp hb
  exact { h with waiting_ok := fun _ => ⟨hf, Nat.lt_of_le_of_ne h.cursor_le hne⟩ }

/-- A block in which no fill waits may latch any code but `MalformedHeader`. -/
theorem State.Inv.withFault {s : State} (h : s.Inv) (hw : s.waiting = false) {f : BitVec 2}
    (hf : f ≠ faultMalformedHeader) : { s with fault := f }.Inv :=
  { h with
    fault_ne := hf
    waiting_ok := fun hw' => absurd (hw.symm.trans hw') Bool.false_ne_true }

/-- A block in which no fill waits may write inside the buffer and move the cursor within its range. -/
theorem State.Inv.withWrite {s : State} (h : s.Inv) (hw : s.waiting = false) {a c : Nat} {bs : List Byte}
    (ha : a + bs.length ≤ s.cap) (hc : c ≤ s.cap) :
    { s with buf := s.buf.writeBytes a bs, cursor := c }.Inv :=
  { h with
    cursor_le := hc
    buf_ok := h.buf_ok.writeBytes ha
    waiting_ok := fun hw' => absurd (hw.symm.trans hw') Bool.false_ne_true }

/-- A block in which no fill waits may compact its buffer. -/
theorem State.Inv.compact {s : State} (h : s.Inv) (hw : s.waiting = false) (n : Nat) : (s.compact n).Inv :=
  { h with
    cursor_le := Nat.sub_le _ _
    buf_ok := h.buf_ok.compact n
    waiting_ok := fun hw' => absurd (hw.symm.trans hw') Bool.false_ne_true }

/-- A reset keeps the capacity and the responses, and establishes the rest. -/
theorem State.Inv.resetBlock {s : State} (h : s.Inv) : s.resetBlock.Inv where
  cap_ge := h.cap_ge
  cursor_le := Nat.zero_le _
  buf_ok := ⟨List.Pairwise.nil, fun _ hc => nomatch hc⟩
  fault_ne := by simp [faultMalformedHeader]
  waiting_ok := fun hw => nomatch hw
  outbox_ok := h.outbox_ok

/-! ### Commands, inputs and steps keep the invariant -/

/-- `RSM_FILL` keeps the invariant, accepted just now or waiting (42_reassembler.md R101, R102). -/
theorem execRsmFill_inv {s t : State} (hs : s.Inv) (h : execRsmFill s = .next t) : t.Inv := by
  rcases execRsmFill_next h with ⟨hb, rfl⟩ | ⟨-, rfl⟩ | ⟨-, -, rfl⟩ | ⟨-, hc, hq, rfl⟩ | ⟨-, hc, -, -, rfl⟩
  case inl => exact hs.beginWait hb
  case inr.inl => exact hs.endWait.answer (Response.legal_none (statusOfFault_mem_producedStatuses _))
  case inr.inr.inl => exact hs.endWait.answer (Response.legal_ok _)
  case inr.inr.inr.inl =>
    have hlen : s.cursor + (s.srcQ.take (s.cap - s.cursor)).length ≤ s.cap := by
      rw [List.length_take]; omega
    exact ((hs.endWait.withWrite rfl hlen (Nat.zero_le _)).withStream _ _ _).answer (Response.legal_ok _)
  case inr.inr.inr.inr =>
    have hlen : s.cursor + s.shortReadBytes.length ≤ s.cap := by
      rw [State.shortReadBytes_length, State.fillNeed]; omega
    have hcur : Config.freeCursor s.draws % (s.cap + 1) ≤ s.cap := Nat.le_of_lt_succ (Nat.mod_lt _ (Nat.succ_pos _))
    have hlatch := (hs.endWait.withWrite rfl hlen hcur).withFault rfl (f := faultShortRead) (by decide)
    exact (hlatch.withStream _ _ _).answer (Response.legal_none (by decide))

/-- `RSM_HDR` keeps the invariant: its latching branch needs `CAP < 16` (42_reassembler.md R103). -/
theorem execRsmHdr_inv {s t : State} (hs : s.Inv) (h : execRsmHdr s = .next t) : t.Inv := by
  rcases execRsmHdr_next h with ⟨-, rfl⟩ | ⟨-, hc, -⟩ | ⟨-, -, hd, -, rfl⟩
  · exact hs.answer (Response.legal_none (statusOfFault_mem_producedStatuses _))
  · exact absurd hs.cap_ge (Nat.not_le.mpr hc)
  · exact hs.answer (Response.legal_ok _)

/-- `RSM_TAKE n` keeps the invariant when no fill waits (42_reassembler.md R104, R105). -/
theorem execRsmTake_inv {n : Nat} {s t : State} (hs : s.Inv) (hw : s.waiting = false)
    (h : execRsmTake n s = .next t) : t.Inv := by
  rcases execRsmTake_next h with ⟨-, rfl⟩ | ⟨-, -, rfl⟩ | ⟨-, -, rfl⟩
  · exact hs.answer (Response.legal_none (statusOfFault_mem_producedStatuses _))
  · exact (hs.withFault hw (f := 3) (by decide)).answer (Response.legal_none (by decide))
  · exact (hs.compact hw n).answer (Response.legal_ok _)

/-- Every command keeps the invariant when no fill waits: outside unit RSM only `crc` and the responses change. -/
theorem exec_inv {i : Instr} {s t : State} (hs : s.Inv) (hw : s.waiting = false) (h : exec i s = .next t) : t.Inv := by
  cases hi : isRsm i with
  | false =>
    obtain ⟨r, hr, ht, -, -⟩ := exec_next_of_not_rsm hi h
    rw [ht]
    exact (hs.withCrcInbox t.crc s.inbox).answer hr
  | true =>
    cases i with
    | rsmFill => exact execRsmFill_inv hs h
    | rsmHdr => exact execRsmHdr_inv hs h
    | rsmTake n => exact execRsmTake_inv hs hw h
    | crcInit | crcByte | crcRead | crcCheck | hdrEnc | hdrDec => cases hi

/-- A command whose opcode is assigned is executed (30_encoding.md R57, R58). -/
theorem issue_of_decode_instr {c : Command} {i : Instr} (h : decode c = .instr i) (s : State) :
    issue c s = exec i s := by
  simp only [issue, h]

/-- A command whose opcode is reserved is answered `BAD_CMD` (30_encoding.md R61). -/
theorem issue_of_decode_reserved {c : Command} {o : BitVec 8} (h : decode c = .reserved o) (s : State) :
    issue c s = .next s.respondBadCmd := by
  simp only [issue, h]

/-- A command on the port keeps the invariant, its opcode assigned or reserved. -/
theorem issue_inv {c : Command} {s t : State} (hs : s.Inv) (hw : s.waiting = false) (h : issue c s = .next t) :
    t.Inv := by
  cases hd : decode c with
  | instr i =>
    rw [issue_of_decode_instr hd] at h
    exact exec_inv hs hw h
  | reserved o =>
    rw [issue_of_decode_reserved hd] at h
    cases h
    exact hs.answer (Response.legal_none (st := statusBadCmd) (by decide))

/-- The environment keeps the invariant. -/
theorem envStep_inv {m : EnvMove} {s t : State} (hs : s.Inv) (h : s.envStep m = .next t) : t.Inv := by
  rcases State.envStep_next h with ⟨bs, -, -, rfl⟩ | ⟨-, rfl⟩ <;> exact hs.withStream _ _ _

/-- Settles O38, by the cases of a step: a command, a reset, a move of the environment, a waiting fill. -/
theorem stepKeepsInvariant : Obligations.StepKeepsInvariant := by
  intro s t hs h
  rcases step_cases h with rfl | ⟨c, rest, hw, -, hc⟩ | ⟨rest, -, -, rfl⟩ | ⟨m, rest, -, hm⟩ | ⟨-, -, hf⟩
  · exact hs
  · exact issue_inv (hs.withCrcInbox s.crc rest) hw hc
  · exact (hs.withCrcInbox s.crc rest).resetBlock
  · exact envStep_inv (hs.withCrcInbox s.crc rest) hm
  · exact execRsmFill_inv hs hf

/-! ### Byte order (00_scope.md R6) -/

/-- `unbe` is the weighted sum of the bytes, the first byte weighing most. -/
theorem unbe_eq_sum (bs : List Byte) :
    unbe bs = ((List.range bs.length).map (fun i => (bs.getD i 0).toNat * 256 ^ (bs.length - 1 - i))).sum := by
  induction bs with
  | nil => rfl
  | cons b bs ih =>
    rw [unbe, ih, List.length_cons, List.range_succ_eq_map, List.map_cons, List.sum_cons, List.map_map]
    have hweight : ∀ i, bs.length - (1 + i) = bs.length - (i + 1) := fun i => by rw [Nat.add_comm]
    simp [Function.comp_def, Nat.sub_sub, hweight]

/-- Byte `i` of `be_N(v)` in powers of two: `v` shifted down by `N - 8 - 8i` bits. -/
theorem be_getElem?_two_pow (k v i : Nat) (h : i < k) :
    (be k v)[i]? = some (BitVec.ofNat 8 (v / 2 ^ (8 * k - 8 - 8 * i))) := by
  have hpow : (256 : Nat) ^ (k - 1 - i) = 2 ^ (8 * k - 8 - 8 * i) := by
    rw [show (256 : Nat) = 2 ^ 8 from rfl, ← Nat.pow_mul]
    congr 1
    omega
  rw [be_getElem? k v i h, hpow]

/-- Settles O16: the lengths, the bytes and both round trips, from the laws of `be` and `unbe`. -/
theorem bigEndianInverse : Obligations.BigEndianInverse :=
  ⟨fun k v hv => ⟨be_length k v, (unbe_be k v).trans (Nat.mod_eq_of_lt hv), be_getElem?_two_pow k v⟩,
    fun bs => ⟨be_unbe bs, unbe_eq_sum bs⟩⟩

/-! ### Which inputs are taken: by an idle block, and while a fill waits (00_scope.md R7) -/

/-- Taking the environment's next move leaves every input of another kind in place. -/
theorem nextEnvMove_filterMap {α : Type} {f : Event → Option α} (hf : ∀ m, f (.env m) = none)
    {es rest : List Event} {m : EnvMove} (h : nextEnvMove es = some (m, rest)) :
    rest.filterMap f = es.filterMap f := by
  induction es generalizing rest with
  | nil => cases h
  | cons e es ih =>
    cases e with
    | env m' =>
      cases h
      rw [List.filterMap_cons_none (hf m)]
    | command | reset =>
      obtain ⟨⟨m', rest'⟩, hes, heq⟩ := Option.map_eq_some_iff.mp h
      cases heq
      rw [List.filterMap_cons, List.filterMap_cons, ih hes]

/-- What happens while a fill is blocked: nothing, a reset, or a move of the environment; no response is given
and no other input is taken. -/
theorem step_waiting_blocked_frame {s t : State} (hw : s.waiting = true) (hb : s.fillBlocked = true)
    (h : step s = .next t) {α : Type} {f : Event → Option α} (hreset : f .reset = none)
    (henv : ∀ m, f (.env m) = none) :
    t.outbox = s.outbox ∧ t.inbox.filterMap f = s.inbox.filterMap f := by
  rw [step_waiting_blocked hw hb] at h
  cases hn : nextWhileWaiting s.inbox with
  | none =>
    rw [hn] at h
    cases h
    exact ⟨rfl, rfl⟩
  | some p =>
    obtain ⟨e, rest⟩ := p
    rw [hn] at h
    rcases nextWhileWaiting_some hn with ⟨rfl, hi⟩ | ⟨m, rfl, hm⟩
    · cases h
      exact ⟨rfl, by rw [hi, List.filterMap_cons_none hreset]; rfl⟩
    · have hrest := nextEnvMove_filterMap henv hm
      rcases State.envStep_next h with ⟨bs, -, -, rfl⟩ | ⟨-, rfl⟩ <;> exact ⟨rfl, hrest⟩

/-- Settles O45: the commands are inputs that are neither a reset nor a move of the environment. -/
theorem waitingInstanceAcceptsNoCommand : Obligations.WaitingInstanceAcceptsNoCommand :=
  fun _ _ hw hb h => step_waiting_blocked_frame hw hb h rfl fun _ => rfl

/-- Settles O35: an idle block applies its next input, and a command that decodes is executed. -/
theorem stepRunsDecodedCommand : Obligations.StepRunsDecodedCommand :=
  fun _ _ _ _ hw hi hd => (step_idle hw hi).trans (issue_of_decode_instr hd _)

end Sys2Proof.Machine

/-! ## State: which commands write which register, the latch, what is permanent (10_state.md R11, R13, R16, R18, R20) -/

namespace Sys2Proof.Machine

/-! ### Unit HDR holds no state (10_state.md R13) -/

/-- `HDR_DEC` of bytes that hold no header answers `MalformedHeader` (41_header_codec.md R94). -/
theorem execHdrDec_of_decodeHeader_none {bs : List Byte} (hd : decodeHeader bs = none) (s : State) :
    execHdrDec bs s = .next (s.respond statusMalformedHeader .none) := by
  rw [execHdrDec, hd]

/-- `HDR_DEC` of bytes that hold a header answers its fields (41_header_codec.md R91). -/
theorem execHdrDec_of_decodeHeader_some {bs : List Byte} {hd : Header} (h : decodeHeader bs = some hd) (s : State) :
    execHdrDec bs s = .next (s.respond statusOk (.fields hd)) := by
  rw [execHdrDec, h]

/-- Settles O17: the response is read off the operands alone, for `HDR_DEC` off the header they hold or do not hold. -/
theorem hdrCommandsArePure : Obligations.HdrCommandsArePure := by
  intro i hcrc hrsm
  cases i with
  | hdrEnc len fid csum => exact ⟨_, fun _ => rfl⟩
  | hdrDec bs =>
    cases hd : decodeHeader bs with
    | none => exact ⟨_, execHdrDec_of_decodeHeader_none hd⟩
    | some h => exact ⟨_, execHdrDec_of_decodeHeader_some hd⟩
  | crcInit | crcByte | crcRead | crcCheck => cases hcrc
  | rsmFill | rsmHdr | rsmTake => cases hrsm

/-! ### What no command of unit RSM writes (20_memory.md R38) -/

/-- The commands of unit RSM are the fill, the header read and the takes (30_encoding.md R58). -/
theorem isRsm_cases {i : Instr} (hi : isRsm i = true) : i = .rsmFill ∨ i = .rsmHdr ∨ ∃ n, i = .rsmTake n := by
  cases i with
  | rsmFill => exact .inl rfl
  | rsmHdr => exact .inr (.inl rfl)
  | rsmTake n => exact .inr (.inr ⟨n, rfl⟩)
  | crcInit | crcByte | crcRead | crcCheck | hdrEnc | hdrDec => cases hi

/-- No command of unit RSM writes `CAP`, `crc`, `SRC.closed` or the inputs to come (20_memory.md R38). -/
theorem exec_rsm_frame {i : Instr} (hi : isRsm i = true) {s t : State} (h : exec i s = .next t) :
    t.cap = s.cap ∧ t.crc = s.crc ∧ t.srcClosed = s.srcClosed ∧ t.inbox = s.inbox := by
  rcases isRsm_cases hi with rfl | rfl | ⟨n, rfl⟩
  · rcases execRsmFill_next h with ⟨-, rfl⟩ | ⟨-, rfl⟩ | ⟨-, -, rfl⟩ | ⟨-, -, -, rfl⟩ | ⟨-, -, -, -, rfl⟩ <;>
      exact ⟨rfl, rfl, rfl, rfl⟩
  · rcases execRsmHdr_next h with ⟨-, rfl⟩ | ⟨-, -, rfl⟩ | ⟨-, -, -, -, rfl⟩ <;> exact ⟨rfl, rfl, rfl, rfl⟩
  · rcases execRsmTake_next h with ⟨-, rfl⟩ | ⟨-, -, rfl⟩ | ⟨-, -, rfl⟩ <;> exact ⟨rfl, rfl, rfl, rfl⟩

/-! ### The register `crc` (10_state.md R11) -/

/-- Settles O30: outside unit RSM by what the commands of units CRC and HDR can do, inside it because no command there
writes `crc`. -/
theorem crcAndHdrCommandsFrame : Obligations.CrcAndHdrCommandsFrame := by
  intro i s t h
  cases hi : isRsm i with
  | false =>
    obtain ⟨r, -, ht, hcrc, -⟩ := exec_next_of_not_rsm hi h
    exact ⟨hcrc, fun _ => ⟨r, ht⟩⟩
  | true =>
    obtain ⟨-, hcrc, -, -⟩ := exec_rsm_frame hi h
    exact ⟨fun _ _ => hcrc, nofun⟩

/-- What a command makes of the register `crc` (40_crc32.md R75, R76; 10_state.md R11). -/
def crcAfter (c : BitVec 32) (i : Instr) : BitVec 32 :=
  match i with
  | .crcInit => crcInitial
  | .crcByte b => crcStep c b
  | _ => c

/-- The register after a command depends on the register before it and on the command alone. -/
theorem exec_crc {i : Instr} {s t : State} (h : exec i s = .next t) : t.crc = crcAfter s.crc i := by
  cases i with
  | crcInit | crcByte => cases h; rfl
  | crcRead | crcCheck | hdrEnc | hdrDec | rsmFill | rsmHdr | rsmTake =>
    exact (crcAndHdrCommandsFrame _ s t h).1 nofun nofun

/-- A sequence that ends with no fill waiting has run its first command to a response, and then the others
(20_memory.md R40). -/
theorem execAll_cons_completes {i : Instr} {is : List Instr} {s t : State} (h : execAll (i :: is) s = .next t)
    (hw : t.waiting = false) : ∃ u, exec i s = .next u ∧ execAll is u = .next t := by
  cases hu : exec i s with
  | next u =>
    cases hwu : u.waiting with
    | false => exact ⟨u, rfl, (execAll_cons_next is hu hwu).symm.trans h⟩
    | true =>
      simp only [execAll, hu, andThen, hwu] at h
      cases h
      exact absurd (hwu.symm.trans hw) nofun
  | fault | refused =>
    simp only [execAll, hu, andThen] at h
    cases h

/-- A sequence that ends with no fill waiting folds its commands into the register. -/
theorem execAll_crc {is : List Instr} {s t : State} (h : execAll is s = .next t) (hw : t.waiting = false) :
    t.crc = is.foldl crcAfter s.crc := by
  induction is generalizing s with
  | nil => cases h; rfl
  | cons i is ih =>
    obtain ⟨u, hu, hrest⟩ := execAll_cons_completes h hw
    rw [List.foldl_cons, ← exec_crc hu]
    exact ih hrest

/-- Settles O7, by induction on the sequence: each command makes of `crc` what `crcAfter` says. -/
theorem crcRegisterFollowsItsOwnCommands : Obligations.CrcRegisterFollowsItsOwnCommands :=
  fun _ _ _ h hw => execAll_crc h hw

/-! ### The latch (10_state.md R16) -/

/-- `i` is the command that raises the fault with latch code `f` (60_exceptions.md R120). -/
def RaisesFault (i : Instr) (f : BitVec 2) : Prop :=
  (i = .rsmHdr ∧ f = 1) ∨ (i = .rsmFill ∧ f = 2) ∨ ((∃ n, i = .rsmTake n) ∧ f = 3)

/-- What a command of unit RSM does to the latch: it answers the latched fault and changes no state, or nothing is latched
before and after, or it raises its fault and answers the code (10_state.md R16; 60_exceptions.md R124, R128). -/
theorem exec_rsm_latch {i : Instr} (hi : isRsm i = true) {s t : State} (h : exec i s = .next t) :
    (s.fault ≠ 0 ∧ t = { s with
      waiting := t.waiting
      outbox := s.outbox ++ [{ status := statusOfFault s.fault, results := .none }] }) ∨
    (s.fault = 0 ∧ t.fault = 0) ∨
    (s.fault = 0 ∧ RaisesFault i t.fault ∧
      t.outbox = s.outbox ++ [{ status := statusOfFault t.fault, results := .none }]) := by
  rcases isRsm_cases hi with rfl | rfl | ⟨n, rfl⟩
  · rcases execRsmFill_next h with ⟨hb, rfl⟩ | ⟨hf, rfl⟩ | ⟨hf, -, rfl⟩ | ⟨hf, -, -, rfl⟩ | ⟨hf, -, -, -, rfl⟩
    · have hf := ((State.fillBlocked_iff s).mp hb).1
      exact .inr (.inl ⟨hf, hf⟩)
    · exact .inl ⟨hf, rfl⟩
    · exact .inr (.inl ⟨hf, hf⟩)
    · exact .inr (.inl ⟨hf, hf⟩)
    · exact .inr (.inr ⟨hf, .inr (.inl ⟨rfl, rfl⟩), rfl⟩)
  · rcases execRsmHdr_next h with ⟨hf, rfl⟩ | ⟨hf, -, rfl⟩ | ⟨hf, -, -, -, rfl⟩
    · exact .inl ⟨hf, rfl⟩
    · exact .inr (.inr ⟨hf, .inl ⟨rfl, rfl⟩, rfl⟩)
    · exact .inr (.inl ⟨hf, hf⟩)
  · rcases execRsmTake_next h with ⟨hf, rfl⟩ | ⟨hf, -, rfl⟩ | ⟨hf, -, rfl⟩
    · exact .inl ⟨hf, rfl⟩
    · exact .inr (.inr ⟨hf, .inr (.inr ⟨⟨n, rfl⟩, rfl⟩), rfl⟩)
    · exact .inr (.inl ⟨hf, hf⟩)

/-- A command of unit CRC or HDR leaves the latch as it is. -/
theorem exec_fault_of_not_rsm {i : Instr} (hi : isRsm i = false) {s t : State} (h : exec i s = .next t) :
    t.fault = s.fault := by
  obtain ⟨r, -, ht, -, -⟩ := exec_next_of_not_rsm hi h
  rw [ht]

/-- Settles O27: outside unit RSM no command reads or writes the latch, inside it by the three things a command can do
to it. -/
theorem faultWrittenOnceByRsmOnly : Obligations.FaultWrittenOnceByRsmOnly := by
  intro i s t h
  cases hi : isRsm i with
  | false =>
    have hkeep := exec_fault_of_not_rsm hi h
    obtain ⟨-, -, -, -, hread⟩ := exec_next_of_not_rsm hi h
    exact ⟨fun hne => absurd hkeep hne, fun _ => hkeep, nofun, fun _ => ⟨hkeep, hread⟩⟩
  | true =>
    rcases exec_rsm_latch hi h with ⟨hf, ht⟩ | ⟨hf, ht⟩ | ⟨hf, hraise, hout⟩
    · have hkeep : t.fault = s.fault := by rw [ht]
      exact ⟨fun hne => absurd hkeep hne, fun _ => hkeep, fun _ _ => ht, nofun⟩
    · exact ⟨fun hne => absurd (ht.trans hf.symm) hne, fun hne => absurd hf hne, fun hne => absurd hf hne, nofun⟩
    · exact ⟨fun _ => ⟨hf, hout, hraise⟩, fun hne => absurd hf hne, fun hne => absurd hf hne, nofun⟩

/-! ### Reset values (10_state.md R18) -/

/-- Settles O40: both resets write the two values. -/
theorem resetStateValues : Obligations.ResetStateValues :=
  ⟨rfl, rfl, fun s => ⟨s.resetBlock_cursor, s.resetBlock_fault⟩⟩

/-! ### What is permanent: `CAP` and a closed stream (00_scope.md R2, 10_state.md R20) -/

/-- No command writes `SRC.closed` or `CAP`. -/
theorem exec_srcClosed_cap {i : Instr} {s t : State} (h : exec i s = .next t) :
    t.srcClosed = s.srcClosed ∧ t.cap = s.cap := by
  cases hi : isRsm i with
  | false =>
    obtain ⟨r, -, ht, -, -⟩ := exec_next_of_not_rsm hi h
    rw [ht]
    exact ⟨rfl, rfl⟩
  | true =>
    obtain ⟨hcap, -, hclosed, -⟩ := exec_rsm_frame hi h
    exact ⟨hclosed, hcap⟩

/-- No command on the port writes `SRC.closed` or `CAP`, its opcode assigned or reserved. -/
theorem issue_srcClosed_cap {c : Command} {s t : State} (h : issue c s = .next t) :
    t.srcClosed = s.srcClosed ∧ t.cap = s.cap := by
  cases hd : decode c with
  | instr i =>
    rw [issue_of_decode_instr hd] at h
    exact exec_srcClosed_cap h
  | reserved o =>
    rw [issue_of_decode_reserved hd] at h
    cases h
    exact ⟨rfl, rfl⟩

/-- Settles O47, by the cases of a step: only the environment writes `SRC.closed`, and it closes. -/
theorem closedAndCapacityArePermanent : Obligations.ClosedAndCapacityArePermanent := by
  intro s t h
  rcases step_cases h with rfl | ⟨c, rest, -, -, hc⟩ | ⟨rest, -, -, rfl⟩ | ⟨m, rest, -, hm⟩ | ⟨-, -, hf⟩
  · exact ⟨id, rfl⟩
  · obtain ⟨hclosed, hcap⟩ := issue_srcClosed_cap hc
    exact ⟨hclosed.trans, hcap⟩
  · exact ⟨id, rfl⟩
  · rcases State.envStep_next hm with ⟨bs, -, -, rfl⟩ | ⟨-, rfl⟩
    · exact ⟨id, rfl⟩
    · exact ⟨fun _ => rfl, rfl⟩
  · obtain ⟨hclosed, hcap⟩ := exec_srcClosed_cap hf
    exact ⟨hclosed.trans, hcap⟩

end Sys2Proof.Machine

/-! ## Memory: the buffer and the input stream (20_memory.md R30, R37, R38, R41, R44, R45) -/

namespace Sys2Proof.Machine

/-! ### What each command leaves unchanged (20_memory.md R38) -/

/-- `RSM_HDR` leaves the buffer, the cursor and the stream as they are, also where it answers a fault. -/
theorem execRsmHdr_frame {s t : State} (h : execRsmHdr s = .next t) :
    t.cursor = s.cursor ∧ t.srcQ = s.srcQ ∧ t.draws = s.draws ∧ t.waiting = s.waiting ∧
      ∀ a, t.bufByte a = s.bufByte a := by
  rcases execRsmHdr_next h with ⟨-, rfl⟩ | ⟨-, -, rfl⟩ | ⟨-, -, -, -, rfl⟩ <;>
    exact ⟨rfl, rfl, rfl, rfl, fun _ => rfl⟩

/-- `RSM_TAKE n` leaves the stream as it is, also where it answers a fault. -/
theorem execRsmTake_frame {n : Nat} {s t : State} (h : execRsmTake n s = .next t) :
    t.srcQ = s.srcQ ∧ t.draws = s.draws ∧ t.waiting = s.waiting := by
  rcases execRsmTake_next h with ⟨-, rfl⟩ | ⟨-, -, rfl⟩ | ⟨-, -, rfl⟩ <;> exact ⟨rfl, rfl, rfl⟩

/-- A fill writes inside `[cursor, CAP)` only: the bytes it reads, or what a `ShortRead` leaves there (R101, R102). -/
theorem execRsmFill_frame {s t : State} (h : execRsmFill s = .next t) :
    t.tape = s.tape ∧ ∀ a, ¬ (s.cursor ≤ a ∧ a < s.cap) → t.bufByte a = s.bufByte a := by
  rcases execRsmFill_next h with ⟨-, rfl⟩ | ⟨-, rfl⟩ | ⟨-, -, rfl⟩ | ⟨-, -, hq, rfl⟩ | ⟨-, -, -, -, rfl⟩
  case inr.inr.inr.inl => exact ⟨rfl, State.fill_other_bytes rfl rfl hq⟩
  case inr.inr.inr.inr => exact ⟨rfl, State.shortRead_bytes rfl rfl⟩
  all_goals exact ⟨rfl, fun _ _ => rfl⟩

/-- Settles O31: the frame of unit RSM as a whole, then of each of its commands. -/
theorem rsmCommandsFrame : Obligations.RsmCommandsFrame :=
  fun _ _ => ⟨fun _ hi => exec_rsm_frame hi, execRsmHdr_frame, execRsmFill_frame, fun _ => execRsmTake_frame⟩

/-! ### Who touches the stream (20_memory.md R30, R41) -/

/-- No command but `RSM_FILL` touches the stream. -/
theorem exec_srcQ_of_ne_rsmFill {i : Instr} (hi : i ≠ .rsmFill) {s t : State} (h : exec i s = .next t) :
    t.srcQ = s.srcQ := by
  cases hr : isRsm i with
  | false =>
    obtain ⟨r, -, ht, -, -⟩ := exec_next_of_not_rsm hr h
    rw [ht]
  | true =>
    rcases isRsm_cases hr with rfl | rfl | ⟨n, rfl⟩
    · exact absurd rfl hi
    · obtain ⟨-, hq, -⟩ := execRsmHdr_frame h
      exact hq
    · obtain ⟨hq, -⟩ := execRsmTake_frame h
      exact hq

/-- A fill removes nothing or exactly what it needs, or it latches `ShortRead` (42_reassembler.md R101, R102). -/
theorem execRsmFill_srcQ {s t : State} (h : execRsmFill s = .next t) :
    t.srcQ = s.srcQ ∨ t.srcQ = s.srcQ.drop (s.cap - s.cursor) ∨ (s.fault = 0 ∧ t.fault = 2) := by
  rcases execRsmFill_next h with ⟨-, rfl⟩ | ⟨-, rfl⟩ | ⟨-, -, rfl⟩ | ⟨-, -, -, rfl⟩ | ⟨hf, -, -, -, rfl⟩
  case inr.inr.inr.inl => exact .inr (.inl rfl)
  case inr.inr.inr.inr => exact .inr (.inr ⟨hf, rfl⟩)
  all_goals exact .inl rfl

/-- Settles O32, by whether the command is a fill. -/
theorem onlyFillConsumesTheStream : Obligations.OnlyFillConsumesTheStream := by
  intro i s t h
  by_cases hi : i = .rsmFill
  · subst hi
    exact ⟨fun hne => absurd rfl hne, execRsmFill_srcQ h⟩
  · have hq := exec_srcQ_of_ne_rsmFill hi h
    exact ⟨fun _ => hq, .inl hq⟩

/-- A command on the port that does not decode to `RSM_FILL` leaves the stream as it is, its opcode assigned or
reserved. -/
theorem issue_srcQ_of_ne_rsmFill {c : Command} (hc : decode c ≠ .instr .rsmFill) {s t : State}
    (h : issue c s = .next t) : t.srcQ = s.srcQ := by
  cases hd : decode c with
  | instr i =>
    rw [issue_of_decode_instr hd] at h
    exact exec_srcQ_of_ne_rsmFill (fun hi => hc (by rw [hd, hi])) h
  | reserved o =>
    rw [issue_of_decode_reserved hd] at h
    cases h
    rfl

/-- The environment only appends to the stream (10_state.md R19). -/
theorem State.envStep_srcQ {m : EnvMove} {s t : State} (h : s.envStep m = .next t) : ∃ new, t.srcQ = s.srcQ ++ new := by
  rcases State.envStep_next h with ⟨bs, -, -, rfl⟩ | ⟨-, rfl⟩
  · exact ⟨bs, rfl⟩
  · exact ⟨[], (List.append_nil _).symm⟩

/-- Settles O46, by the cases of a step: only the environment changes the stream, and it appends. -/
theorem pendingBytesStayUntilAFill : Obligations.PendingBytesStayUntilAFill := by
  intro s t h hw hnofill
  have unchanged {q : List Byte} (hq : q = s.srcQ) : ∃ new, q = s.srcQ ++ new := ⟨[], by rw [hq, List.append_nil]⟩
  rcases step_cases h with rfl | ⟨c, rest, -, hi, hc⟩ | ⟨rest, -, -, rfl⟩ | ⟨m, rest, -, hm⟩ | ⟨hw', -, -⟩
  · exact unchanged rfl
  · exact unchanged (issue_srcQ_of_ne_rsmFill (s := { s with inbox := rest }) (hnofill c rest hi) hc)
  · exact unchanged rfl
  · exact State.envStep_srcQ (s := { s with inbox := rest }) hm
  · exact absurd (hw.symm.trans hw') Bool.false_ne_true

/-! ### The grouping of arriving bytes (20_memory.md R37) -/

/-- An idle block whose next input is an arrival on an open stream appends the bytes (10_state.md R19). -/
theorem step_arrive {s : State} {bs : List Byte} {rest : List Event} (hw : s.waiting = false)
    (hcl : s.srcClosed = false) (hi : s.inbox = .env (.arrive bs) :: rest) :
    step s = .next { s with inbox := rest, srcQ := s.srcQ ++ bs } := by
  rw [step_idle hw hi]
  simp [applyEvent, State.envStep, hcl]

/-- A run whose first step goes on is the rest of the run from there. -/
theorem run_succ_of_step {M : Host.Core} {s t : M.State} (h : M.step s = .next t) (k : Nat) :
    M.run (k + 1) s = M.run k t := by
  rw [Host.Core.run, h]

/-- Settles O42, by induction on the groups: each step appends one of them. -/
theorem chunkingInvisible : Obligations.ChunkingInvisible := by
  intro chunks rest
  induction chunks with
  | nil =>
    intro s _ _ hi
    obtain rfl : s.inbox = rest := hi
    exact congrArg (fun q => Host.Outcome.next { s with srcQ := q }) (List.append_nil s.srcQ).symm
  | cons bs chunks ih =>
    intro s hw hcl hi
    have hstep := step_arrive hw hcl hi
    rw [List.flatten_cons, ← List.append_assoc]
    exact (run_succ_of_step hstep chunks.length).trans (ih { s with inbox := _, srcQ := s.srcQ ++ bs } hw hcl rfl)

/-! ### The window along a conforming run (20_memory.md R44, R45) -/

/-- What the buffer holds stays the same piece of a stream that grows at its back. -/
theorem State.holds_append {s : State} {stream : List Byte} {p k : Nat} (h : s.holds stream p k) (bs : List Byte) :
    s.holds (stream ++ bs) p k := by
  intro i hi
  have hin := (List.getElem?_eq_some_iff.mp (h i hi)).1
  rw [List.getElem?_append_left hin, h i hi]

/-- What is pending from a position of the stream on still is, when the same bytes are appended to both. -/
theorem pending_append {q stream : List Byte} {k : Nat} (h : q = stream.drop k) (hk : k ≤ stream.length)
    (bs : List Byte) : q ++ bs = (stream ++ bs).drop k := by
  rw [List.drop_append_of_le_length hk, h]

/-- Where the window stands, with the account `l` of the run so far and `stream` every byte that came in: the full window
after a fill, the retained bytes after a take or at the start (42_reassembler.md R106). -/
def WindowAt (full : Bool) (stream : List Byte) (s : State) (l : Ledger) : Prop :=
  match full with
  | true => s.windowFull stream l.consumed ∧ l.buffered = s.cap
  | false => s.retained stream l.consumed ∧ l.buffered = s.cursor

/-- The invariant of conforming runs: the window stands at the sum of the takes, the account balances (R44), and the fills
have read no byte that did not come in. -/
structure WindowInv (full : Bool) (stream : List Byte) (s : State) (l : Ledger) : Prop where
  window : WindowAt full stream s l
  balance : l.consumed + l.buffered = l.read
  read_le : l.read ≤ stream.length

/-- A reset state has read nothing and holds nothing (42_reassembler.md R106). -/
theorem WindowInv.start {s : State} (hf : s.fault = 0) (hc : s.cursor = 0) (hw : s.waiting = false) :
    WindowInv false s.srcQ s { read := 0, consumed := 0, buffered := 0 } where
  window := by
    refine ⟨⟨hf, hw, by omega, ?_, by rw [hc]; rfl⟩, hc.symm⟩
    intro i hi
    omega
  balance := rfl
  read_le := Nat.zero_le _

/-- The register `crc`, the responses and the closed flag are outside the invariant. -/
theorem WindowInv.withCrcOutboxClosed {full : Bool} {stream : List Byte} {s : State} {l : Ledger}
    (h : WindowInv full stream s l) (c : BitVec 32) (o : List Response) (closed : Bool) :
    WindowInv full stream { s with crc := c, outbox := o, srcClosed := closed } l :=
  { h with window := by cases full <;> exact h.window }

/-- Arriving bytes leave the window where it stands (20_memory.md R41). -/
theorem WindowInv.arrive {full : Bool} {stream : List Byte} {s : State} {l : Ledger}
    (h : WindowInv full stream s l) (bs : List Byte) :
    WindowInv full (stream ++ bs) { s with srcQ := s.srcQ ++ bs } l where
  window := by
    obtain ⟨hwin, hbal, hle⟩ := h
    cases full with
    | true =>
      obtain ⟨⟨hf, hw, hh, hq⟩, hb⟩ := hwin
      have hin : l.consumed + s.cap ≤ stream.length := by omega
      exact ⟨⟨hf, hw, State.holds_append hh bs, pending_append hq hin bs⟩, hb⟩
    | false =>
      obtain ⟨⟨hf, hw, hc, hh, hq⟩, hb⟩ := hwin
      have hin : l.consumed + s.cursor ≤ stream.length := by omega
      exact ⟨⟨hf, hw, hc, State.holds_append hh bs, pending_append hq hin bs⟩, hb⟩
  balance := h.balance
  read_le := by
    rw [List.length_append]
    exact Nat.le_add_right_of_le h.read_le

/-- A move of the environment keeps the invariant, with its bytes at the back of the stream. -/
theorem WindowInv.envStep {full : Bool} {stream : List Byte} {s t : State} {l : Ledger} {m : EnvMove}
    (h : WindowInv full stream s l) (hm : s.envStep m = .next t) : WindowInv full (stream ++ arrived [.env m]) t l := by
  rcases State.envStep_next hm with ⟨bs, rfl, -, rfl⟩ | ⟨rfl, rfl⟩
  · rw [arrived, arrived, List.append_nil]
    exact h.arrive bs
  · rw [arrived, arrived, List.append_nil]
    exact h.withCrcOutboxClosed s.crc s.outbox true

/-- A fill that completes with nothing latched had all the bytes it needed (42_reassembler.md R101). -/
theorem fillNeed_le_of_execRsmFill {s t : State} (h : execRsmFill s = .next t) (hw : t.waiting = false)
    (hf : t.fault = 0) : s.cap - s.cursor ≤ s.srcQ.length := by
  rcases execRsmFill_next h with ⟨-, rfl⟩ | ⟨hf', rfl⟩ | ⟨-, hc, -⟩ | ⟨-, -, hq, -⟩ | ⟨-, -, -, -, rfl⟩
  · exact absurd hw.symm Bool.false_ne_true
  · exact absurd hf hf'
  · omega
  · exact hq
  · exact absurd (show faultShortRead = 0 from hf) (by decide)

/-- A take that completes with nothing latched fits the buffer (42_reassembler.md R105). -/
theorem le_cap_of_execRsmTake {n : Nat} {s t : State} (h : execRsmTake n s = .next t) (hf : t.fault = 0) :
    n ≤ s.cap := by
  rcases execRsmTake_next h with ⟨hf', rfl⟩ | ⟨-, -, rfl⟩ | ⟨-, hn, -⟩
  · exact absurd hf hf'
  · exact absurd (show faultBufferOverflow = 0 from hf) (by decide)
  · exact hn

/-- A fill that completes turns the retained bytes into a full window at the same position and reads the bytes that were
missing (42_reassembler.md R101, R106). -/
theorem WindowInv.fill {stream : List Byte} {s t : State} {l : Ledger} (h : WindowInv false stream s l)
    (ht : execRsmFill s = .next t) (hw : t.waiting = false) (hf : t.fault = 0) :
    WindowInv true stream t (ledgerAfter .rsmFill s t l) := by
  obtain ⟨⟨hret, hbuf⟩, hbal, hle⟩ := h
  obtain ⟨-, -, hcur, -, hq⟩ := id hret
  have hneed := fillNeed_le_of_execRsmFill ht hw hf
  have hwindow : l.consumed + s.cap ≤ stream.length := by
    rw [hq, List.length_drop] at hneed
    omega
  obtain ⟨t', ht', hfull, hcap, -, hlen⟩ := State.retained_fill hret hwindow
  cases ht.symm.trans ht'
  refine ⟨⟨hfull, hcap.symm⟩, ?_, ?_⟩ <;> simp only [ledgerAfter] <;> omega

/-- A header read that completes leaves the window as it stands (42_reassembler.md R103). -/
theorem WindowInv.hdr {stream : List Byte} {s t : State} {l : Ledger} (h : WindowInv true stream s l)
    (ht : execRsmHdr s = .next t) (hf : t.fault = 0) : WindowInv true stream t l := by
  rcases execRsmHdr_next ht with ⟨hf', rfl⟩ | ⟨-, -, rfl⟩ | ⟨-, -, hd, -, rfl⟩
  · exact absurd hf hf'
  · exact absurd (show faultMalformedHeader = 0 from hf) (by decide)
  · exact h.withCrcOutboxClosed s.crc _ s.srcClosed

/-- A take that completes moves the window by its operand and retains the rest (42_reassembler.md R104). -/
theorem WindowInv.take {n : Nat} {stream : List Byte} {s t : State} {l : Ledger} (h : WindowInv true stream s l)
    (ht : execRsmTake n s = .next t) (hf : t.fault = 0) :
    WindowInv false stream t (ledgerAfter (.rsmTake n) s t l) := by
  obtain ⟨⟨hfull, hbuf⟩, hbal, hle⟩ := h
  have hn := le_cap_of_execRsmTake ht hf
  obtain ⟨t', ht', hret, hcur, -⟩ := State.windowFull_take hfull hn
  cases ht.symm.trans ht'
  refine ⟨⟨hret, hcur.symm⟩, ?_, hle⟩
  simp only [ledgerAfter]
  omega

/-- A command of unit CRC or HDR may stand anywhere in a conforming sequence (70_reset_and_hazards.md R146). -/
theorem conformStep_of_not_rsm {i : Instr} (hi : isRsm i = false) (full : Bool) : conformStep full i = some full := by
  cases i with
  | crcInit | crcByte | crcRead | crcCheck | hdrEnc | hdrDec => rfl
  | rsmFill | rsmHdr | rsmTake => cases hi

/-- A command of unit CRC or HDR does not count in the account of R44. -/
theorem ledgerAfter_of_not_rsm {i : Instr} (hi : isRsm i = false) (s t : State) (l : Ledger) :
    ledgerAfter i s t l = l := by
  cases i with
  | crcInit | crcByte | crcRead | crcCheck | hdrEnc | hdrDec => rfl
  | rsmFill | rsmHdr | rsmTake => cases hi

/-- A conforming command that completes with nothing latched keeps the invariant. -/
theorem WindowInv.exec {full full' : Bool} {stream : List Byte} {s t : State} {l : Ledger} {i : Instr}
    (h : WindowInv full stream s l) (hconf : conformStep full i = some full') (ht : exec i s = .next t)
    (hw : t.waiting = false) (hf : t.fault = 0) : WindowInv full' stream t (ledgerAfter i s t l) := by
  cases hi : isRsm i with
  | false =>
    rw [conformStep_of_not_rsm hi] at hconf
    cases hconf
    obtain ⟨r, -, heq, -, -⟩ := exec_next_of_not_rsm hi ht
    rw [ledgerAfter_of_not_rsm hi, heq]
    exact h.withCrcOutboxClosed t.crc _ s.srcClosed
  | true =>
    -- a fill conforms only where no fill stands, a header read and a take only where one does
    rcases isRsm_cases hi with rfl | rfl | ⟨n, rfl⟩ <;> cases full <;> cases hconf
    · exact h.fill ht hw hf
    · exact h.hdr ht hf
    · exact h.take ht hf

/-- The first command of a conforming sequence conforms, and the rest conforms after it. -/
theorem conforms_command {full full' : Bool} {i : Instr} {acts : List Act}
    (h : conforms full (.command i :: acts) = some full') :
    ∃ mid, conformStep full i = some mid ∧ conforms mid acts = some full' := by
  rw [conforms] at h
  cases hmid : conformStep full i with
  | none =>
    rw [hmid] at h
    cases h
  | some mid =>
    rw [hmid] at h
    exact ⟨mid, rfl, h⟩

/-- A run that ends has completed its first command with nothing latched. -/
theorem runLedger_command {i : Instr} {acts : List Act} {s : State} {l : Ledger} {r : State × Ledger}
    (h : runLedger (.command i :: acts) s l = some r) :
    ∃ t, exec i s = .next t ∧ t.waiting = false ∧ t.fault = 0 ∧ runLedger acts t (ledgerAfter i s t l) = some r := by
  rw [runLedger] at h
  cases ht : exec i s with
  | next t =>
    simp only [ht] at h
    split at h
    · cases h
    · next hgo =>
      simp only [Bool.or_eq_true, bne_iff_ne, not_or, Bool.not_eq_true, not_not] at hgo
      exact ⟨t, rfl, hgo.1, hgo.2, h⟩
  | fault | refused =>
    rw [ht] at h
    cases h

/-- A run that ends has gone on after the first move of the environment. -/
theorem runLedger_env {m : EnvMove} {acts : List Act} {s : State} {l : Ledger} {r : State × Ledger}
    (h : runLedger (.env m :: acts) s l = some r) : ∃ t, s.envStep m = .next t ∧ runLedger acts t l = some r := by
  rw [runLedger] at h
  cases ht : s.envStep m with
  | next t =>
    rw [ht] at h
    exact ⟨t, rfl, h⟩
  | fault | refused =>
    rw [ht] at h
    cases h

/-- The bytes of the environment's first move come in before the others. -/
theorem arrived_env_cons (m : EnvMove) (acts : List Act) :
    arrived (.env m :: acts) = arrived [.env m] ++ arrived acts := by
  cases m <;> simp [arrived]

/-- Every conforming run that ends keeps the invariant, over the stream with all the bytes that arrived in it. -/
theorem WindowInv.runLedger {acts : List Act} {full full' : Bool} {stream : List Byte} {s t : State} {l l' : Ledger}
    (h : WindowInv full stream s l) (hconf : conforms full acts = some full')
    (hrun : runLedger acts s l = some (t, l')) : WindowInv full' (stream ++ arrived acts) t l' := by
  induction acts generalizing full stream s l with
  | nil =>
    cases hconf
    cases hrun
    rw [arrived, List.append_nil]
    exact h
  | cons act acts ih =>
    cases act with
    | command i =>
      obtain ⟨mid, hstep, hrest⟩ := conforms_command hconf
      obtain ⟨u, hu, hw, hf, hgo⟩ := runLedger_command hrun
      exact ih (h.exec hstep hu hw hf) hrest hgo
    | env m =>
      obtain ⟨u, hu, hgo⟩ := runLedger_env hrun
      rw [arrived_env_cons, ← List.append_assoc]
      exact ih (h.envStep hu) hconf hgo

/-- Settles O49: the account balances in every state of a conforming run. -/
theorem conservationForConformingRuns : Obligations.ConservationForConformingRuns := by
  intro acts full s t l hf hc hw hconf hrun
  exact ((WindowInv.start hf hc hw).runLedger hconf hrun).balance

/-- Settles O50: the invariant at the end of the run, for a window that is full and for one that is not. -/
theorem windowPosition : Obligations.WindowPosition := by
  intro acts full s t l hf hc hw hconf hrun
  obtain ⟨hwin, hbal, -⟩ := (WindowInv.start hf hc hw).runLedger hconf hrun
  cases full with
  | true =>
    obtain ⟨hfull, hbuf⟩ := hwin
    exact ⟨fun _ => ⟨hfull, by rw [← hbal, hbuf]⟩, nofun⟩
  | false =>
    obtain ⟨hret, -⟩ := hwin
    exact ⟨nofun, fun _ => hret⟩

end Sys2Proof.Machine

/-! ## Encoding: the command port, the header's bits, frames on the wire (30_encoding.md R50 to R53, R57 to R61) -/

namespace Sys2Proof

/-! ### Encoder and decoder (30_encoding.md R57, R58, R59, R61) -/

/-- Ports that drive the operands of `i` decode to `i` under its opcode, whatever the other ports hold. -/
theorem decode_opcodeOf_of_drive {p : Ports} {i : Instr} (h : p.drive i) :
    decode { opcode := opcodeOf i, ports := p } = .instr i := by
  cases i with
  | crcInit | crcRead | rsmFill | rsmHdr => rfl
  | crcByte | crcCheck | hdrDec | rsmTake =>
    cases h
    rfl
  | hdrEnc =>
    obtain ⟨rfl, rfl, rfl⟩ := h
    rfl

/-- The encoder drives the operands on the ports that the command's format names. -/
theorem Ports.drive_portsOf (i : Instr) : (portsOf i).drive i := by
  cases i with
  | crcInit | crcRead | rsmFill | rsmHdr => trivial
  | crcByte | crcCheck | hdrDec | rsmTake => rfl
  | hdrEnc => exact ⟨rfl, rfl, rfl⟩

/-- A command word decodes to `i` exactly when it has the opcode of `i` and its ports drive the operands of `i`. -/
theorem decode_eq_instr_iff {c : Command} {i : Instr} :
    decode c = .instr i ↔ c.opcode = opcodeOf i ∧ c.ports.drive i := by
  constructor
  · intro h
    rcases decode_spec c with ⟨-, j, hj, hop, hdrive⟩ | ⟨-, hres⟩
    · cases hj.symm.trans h
      exact ⟨hop, hdrive⟩
    · cases hres.symm.trans h
  · obtain ⟨o, p⟩ := c
    rintro ⟨rfl, hdrive⟩
    exact decode_opcodeOf_of_drive hdrive

/-- A command word is reserved exactly when its opcode is unassigned, and the decoder names that opcode. -/
theorem decode_eq_reserved_iff {c : Command} {o : BitVec 8} :
    decode c = .reserved o ↔ c.opcode ∉ assignedOpcodes ∧ o = c.opcode := by
  constructor
  · intro h
    rcases decode_spec c with ⟨-, j, hj, -⟩ | ⟨hun, hres⟩
    · cases hj.symm.trans h
    · cases hres.symm.trans h
      exact ⟨hun, rfl⟩
  · rintro ⟨hun, rfl⟩
    rcases decode_spec c with ⟨hop, -⟩ | ⟨-, hres⟩
    · exact absurd hop hun
    · exact hres

/-- Settles O37: the decoder is its two equivalences, and the encoder drives what the first of them asks for. -/
theorem commandEncodeDecodeAgree : Obligations.CommandEncodeDecodeAgree :=
  ⟨fun i => ⟨Laws.instr_wellFormed i, decode_opcodeOf_of_drive (Ports.drive_portsOf i)⟩,
    fun _ _ => decode_eq_instr_iff,
    fun _ => decode_eq_reserved_iff.trans (and_iff_left rfl),
    fun _ _ h => (decode_eq_reserved_iff.mp h).2⟩

/-- Settles O36: each opcode byte of the table with any ports, then the opcodes outside it. -/
theorem opcodeBytesDecode : Obligations.OpcodeBytesDecode :=
  fun _ => ⟨rfl, rfl, rfl, rfl, rfl, rfl, rfl, rfl, rfl, fun _ ho => decode_eq_reserved_iff.mpr ⟨ho, rfl⟩⟩

end Sys2Proof

namespace Sys2Proof.Machine

/-! ### Reserved opcodes (30_encoding.md R61) -/

/-- Settles O34: the count by evaluation; an idle block applies its next input, and a reserved opcode is answered
`BAD_CMD`. -/
theorem reservedOpcodesAnswerBadCmd : Obligations.ReservedOpcodesAnswerBadCmd :=
  ⟨by decide +kernel, fun _ _ _ hc hw hi =>
    (step_idle hw hi).trans (issue_of_decode_reserved (decode_eq_reserved_iff.mpr ⟨hc, rfl⟩) _)⟩

/-! ### The header's bits (30_encoding.md R51) -/

/-- Bit `m` of byte `j` of `be_N(v)` is bit `8(N/8-1-j) + m` of `v`. -/
theorem be_getD_getLsbD (k v : Nat) {j m : Nat} (hj : j < k) (hm : m < 8) :
    ((be k v).getD j 0).getLsbD m = v.testBit (8 * (k - 1 - j) + m) := by
  have hpow : (256 : Nat) ^ (k - 1 - j) = 2 ^ (8 * (k - 1 - j)) := (Nat.pow_mul 2 8 _).symm
  rw [List.getD_eq_getElem?_getD, be_getElem? k v j hj, Option.getD_some, BitVec.getLsbD_ofNat, hpow,
    Nat.testBit_div_two_pow, Nat.add_comm m]
  simp [hm]

/-- The high bytes of a value come first, the low bytes after them. -/
theorem be_add (a b v : Nat) : be (a + b) v = be a (v / 256 ^ b) ++ be b v := by
  induction a with
  | zero => simp [be]
  | succ a ih =>
    rw [Nat.succ_add, be, be, ih, Nat.div_div_eq_div_mul, ← Nat.pow_add, Nat.add_comm b, List.cons_append]

/-- The bytes of a concatenation are the bytes of its parts, the last of them a whole number of bytes wide. -/
theorem be_toNat_append {w n : Nat} (x : BitVec w) (y : BitVec n) (a b : Nat) (hn : n = 8 * b) :
    be (a + b) (x ++ y).toNat = be a x.toNat ++ be b y.toNat := by
  have hpow : (256 : Nat) ^ b = 2 ^ n := by rw [hn, Nat.pow_mul]
  have hval : (x ++ y).toNat = 2 ^ n * x.toNat + y.toNat := by
    rw [BitVec.toNat_append, ← Nat.shiftLeft_add_eq_or_of_lt y.isLt, Nat.shiftLeft_eq, Nat.mul_comm]
  have hhigh : (x ++ y).toNat / 256 ^ b = x.toNat := by
    rw [hval, hpow, Nat.mul_add_div (Nat.two_pow_pos n), Nat.div_eq_of_lt y.isLt, Nat.add_zero]
  have hlow : (x ++ y).toNat % 256 ^ b = y.toNat := by
    rw [hval, hpow, Nat.mul_add_mod, Nat.mod_eq_of_lt y.isLt]
  rw [be_add, hhigh, ← be_mod b (x ++ y).toNat b (Nat.le_refl b), hlow]

/-- The header is the big-endian form of the 128-bit word `len ++ fid ++ csum`. -/
theorem encodeHeader_eq_be (h : Header) : encodeHeader h = be 16 (h.len ++ h.fid ++ h.csum).toNat := by
  rw [be_toNat_append _ h.csum 12 4 rfl, be_toNat_append h.len h.fid 4 8 rfl]
  rfl

/-- Bit `m` of header byte `j` is bit `8(15-j) + m` of `len ++ fid ++ csum`. -/
theorem encodeHeader_getLsbD (h : Header) {j m : Nat} (hj : j < 16) (hm : m < 8) :
    ((encodeHeader h).getD j 0).getLsbD m = (h.len ++ h.fid ++ h.csum).getLsbD (8 * (15 - j) + m) := by
  rw [encodeHeader_eq_be, be_getD_getLsbD 16 _ hj hm]
  rfl

/-- Bit `i` of `len ++ fid ++ csum` stands in header byte `15 - i/8` at bit `i mod 8`. -/
theorem encodeHeader_getLsbD_of_word (h : Header) {i j m : Nat} (hi : i < 128) (hj : j = 15 - i / 8) (hm : m = i % 8) :
    ((encodeHeader h).getD j 0).getLsbD m = (h.len ++ h.fid ++ h.csum).getLsbD i := by
  rw [encodeHeader_getLsbD h (by omega) (by omega)]
  congr 1
  omega

/-- Settles O13: in `len ++ fid ++ csum` the three fields begin at bits 96, 32 and 0. -/
theorem headerBitLayout : Obligations.HeaderBitLayout := by
  intro h
  refine ⟨rfl, encodeHeader_length h, fun j m => encodeHeader_getLsbD h, fun k hk => ?len, fun k hk => ?fid,
    fun k hk => ?csum⟩
  case len =>
    rw [encodeHeader_getLsbD_of_word h (i := 32 + (64 + k)) (by omega) (by omega) (by omega), BitVec.getLsbD_append,
      if_neg (by omega), Nat.add_sub_cancel_left, BitVec.getLsbD_append, if_neg (by omega), Nat.add_sub_cancel_left]
  case fid =>
    rw [encodeHeader_getLsbD_of_word h (i := 32 + k) (by omega) (by omega) (by omega), BitVec.getLsbD_append,
      if_neg (by omega), Nat.add_sub_cancel_left, BitVec.getLsbD_append, if_pos hk]
  case csum =>
    rw [encodeHeader_getLsbD_of_word h (i := k) (by omega) rfl rfl, BitVec.getLsbD_append, if_pos hk]

/-! ### Frames on the wire (30_encoding.md R50, R52, R53) -/

/-- A stream that starts with a frame starts with that frame's header. -/
theorem decodeHeader_frameBytes_append (f : Frame) (rest : List Byte) :
    decodeHeader (frameBytes f ++ rest) = some f.header := by
  rw [frameBytes, List.append_assoc, decodeHeader_append (encodeHeader_length _), decodeHeader_encodeHeader]

/-- A slice that ends inside the first part of a sequence is a slice of that part. -/
theorem slice_append_of_le {bs : List Byte} {b : Nat} (h : b ≤ bs.length) (a : Nat) (rest : List Byte) :
    slice (bs ++ rest) a b = slice bs a b := by
  rw [slice, slice, ← List.drop_take, ← List.drop_take, List.take_append_of_le_length h]

/-- Taking a frame off a stream that starts with one gives that frame and the bytes after it. -/
theorem takeFrame_frameBytes_append {f : Frame} (h : frameWellFormed f = true) (rest : List Byte) :
    takeFrame (frameBytes f ++ rest) = some (f, rest) := by
  have hlen : (frameBytes f).length = takeOperand f.header.len := frameLength_eq f h
  have hpayload : slice (frameBytes f ++ rest) hdrLen (takeOperand f.header.len) = f.payload := by
    rw [slice_append_of_le hlen.ge, slice_frame f h]
  have hdrop : (frameBytes f ++ rest).drop (takeOperand f.header.len) = rest := List.drop_left' hlen
  have hwhole : ¬ (frameBytes f ++ rest).length < takeOperand f.header.len := by
    rw [List.length_append, hlen]
    omega
  simp only [takeFrame, decodeHeader_frameBytes_append, if_neg hwhole, hpayload, hdrop]

/-- Settles O56, by induction on the frames: each is taken off by its own length. -/
theorem frameStreamDecodes : Obligations.FrameStreamDecodes := by
  intro fs rest hwf
  induction fs with
  | nil => rfl
  | cons f fs ih =>
    obtain ⟨hf, hfs⟩ := List.forall_mem_cons.mp hwf
    rw [List.length_cons, takeFrames, streamOf, List.append_assoc, takeFrame_frameBytes_append hf]
    simp only [ih hfs, Option.map_some]

end Sys2Proof.Machine

/-! ## Unit CRC: the checksum and its commands (40_crc32.md R70 to R79) -/

namespace Sys2Proof.Machine

/-! ### Eight shifts of a word: its low byte is folded, the rest moves down (40_crc32.md R71, R72) -/

/-- Clearing the low byte of a word by an XOR leaves its low eight bits zero. -/
theorem getLsbD_xor_low_byte (w : BitVec 32) {i : Nat} (hi : i < 8) :
    (w ^^^ (w.setWidth 8).setWidth 32).getLsbD i = false := by
  have hi32 : i < 32 := by omega
  simp [hi, hi32]

/-- A byte is shifted out of a word by eight. -/
theorem byte_ushiftRight_eight (b : Byte) : b.setWidth 32 >>> 8 = 0#32 := by
  apply BitVec.eq_of_getLsbD_eq
  intro i hi
  simp

/-- Eight shifts of `c XOR w` fold the low byte of `w` into `c`, and the rest of `w` moves down unchanged. -/
theorem crcShifts_eight_xor (c w : BitVec 32) :
    crcShifts 8 (c ^^^ w) = crcStep c (w.setWidth 8) ^^^ w >>> 8 := by
  have hsplit : c ^^^ w = (c ^^^ (w.setWidth 8).setWidth 32) ^^^ (w ^^^ (w.setWidth 8).setWidth 32) := by
    rw [BitVec.xor_comm w, ← BitVec.xor_assoc, xor_cancel_right]
  have hhigh : crcShifts 8 (w ^^^ (w.setWidth 8).setWidth 32) = w >>> 8 := by
    rw [crcShifts_of_low_zero 8 _ fun i hi => getLsbD_xor_low_byte w hi, BitVec.ushiftRight_xor_distrib,
      byte_ushiftRight_eight, BitVec.xor_zero]
  rw [hsplit, crcShifts_xor, hhigh, crcStep]

/-! ### The table (40_crc32.md R72) -/

/-- The listed table is the step from register 0, byte by byte. -/
theorem crcTable_eq_map_crcStep : crcTable = (List.range 256).map fun i => crcStep 0 (BitVec.ofNat 8 i) := by
  decide +kernel

theorem crcTable_getElem? {i : Nat} (hi : i < 256) : crcTable[i]? = some (crcStep 0 (BitVec.ofNat 8 i)) := by
  rw [crcTable_eq_map_crcStep, List.getElem?_map, List.getElem?_range hi, Option.map_some]

/-- The index of R72 is the low byte, and its entry is the step from register 0 by that byte. -/
theorem crcTable_getD_low_byte (w : BitVec 32) :
    crcTable.getD (w &&& 0xFF#32).toNat 0 = crcStep 0 (w.setWidth 8) := by
  have hidx : (w &&& 0xFF#32).toNat = (w.setWidth 8).toNat := by
    rw [BitVec.toNat_and, BitVec.toNat_setWidth]
    exact Nat.and_two_pow_sub_one_eq_mod w.toNat 8
  rw [hidx, List.getD_eq_getElem?_getD, crcTable_getElem? (w.setWidth 8).isLt, Option.getD_some, BitVec.ofNat_toNat,
    BitVec.setWidth_eq]

theorem crcStep_eq_crcStepTable (c : BitVec 32) (b : Byte) : crcStep c b = crcStepTable c b := by
  have hshift : (c ^^^ b.setWidth 32) >>> 8 = c >>> 8 := by
    rw [BitVec.ushiftRight_xor_distrib, byte_ushiftRight_eight, BitVec.xor_zero]
  have hstep := crcShifts_eight_xor 0#32 (c ^^^ b.setWidth 32)
  rw [BitVec.zero_xor, hshift] at hstep
  rw [crcStepTable, crcTable_getD_low_byte, BitVec.xor_comm]
  exact hstep

/-- Settles O5: the step is linear, so the low byte of `c XOR b` can be looked up and the rest shifted down. -/
theorem crcStepEqualsTableForm : Obligations.CrcStepEqualsTableForm := by
  have hlen : crcTable.length = 256 := by rw [crcTable_eq_map_crcStep, List.length_map, List.length_range]
  refine ⟨hlen, fun _ hi => crcTable_getElem? hi, fun c b => ?_⟩
  exact ⟨crcStep_eq_crcStepTable c b, (crcStep_eq_crcStepTable c b).symm⟩

/-! ### The checksum of joined sequences (40_crc32.md R73) -/

/-- The final XOR gives back the register that a sequence leaves. -/
theorem crcFinish_crc32 (bs : List Byte) : crcFinish (crc32 bs) = crcFold crcInitial bs :=
  crcFinish_crcFinish _

/-- R73 (c): the checksum of the first part stands for the register that it leaves. -/
theorem crc32_append (bs cs : List Byte) : crc32 (bs ++ cs) = crcFinish (crcFold (crcFinish (crc32 bs)) cs) := by
  rw [crcFinish_crc32, ← crcFold_append_bytes, crc32]

/-- Settles O9: the register folds the parts one after another, and the final XOR undoes itself. -/
theorem crcIncremental : Obligations.CrcIncremental :=
  fun c bs cs => ⟨crcFold_append_bytes c bs cs, crc32_append bs cs⟩

/-- Folding the four bytes of a word, least significant first, is 32 shifts of the register XOR the word. -/
theorem crcFold_bytes_of_word (c w : BitVec 32) :
    crcFold c [w.extractLsb' 0 8, w.extractLsb' 8 8, w.extractLsb' 16 8, w.extractLsb' 24 8] = crcShifts 32 (c ^^^ w) := by
  have hlast : w >>> 32 = 0#32 := BitVec.ushiftRight_eq_zero (Nat.le_refl 32)
  rw [crcShifts_add 8 24, crcShifts_eight_xor, crcShifts_add 8 16, crcShifts_eight_xor, crcShifts_add 8 8,
    crcShifts_eight_xor, crcShifts_eight_xor]
  simp only [crcFold_cons, crcFold_nil, ← BitVec.setWidth_ushiftRight_eq_extractLsb, BitVec.ushiftRight_zero,
    ← BitVec.shiftRight_add, Nat.reduceAdd, hlast, BitVec.xor_zero]

/-- Settles O10: the checksum is the register XOR all ones, so folding its bytes shifts a word of ones 32 times. -/
theorem crcResidueConstant : Obligations.CrcResidueConstant := by
  intro bs
  have hones : crcFinish (crc32 bs) ^^^ crc32 bs = 0xFFFFFFFF#32 := xor_xor_cancel_comm _ _
  rw [crc32_append, crcFold_bytes_of_word, hones]
  decide +kernel

theorem crcFinish_injective : Function.Injective crcFinish :=
  Function.Involutive.injective crcFinish_crcFinish

/-- Settles O11: from one register different bytes leave different registers, and equal bytes keep them different. -/
theorem crcSingleByteSensitive : Obligations.CrcSingleByteSensitive := by
  intro bs cs x y hxy heq
  rw [crc32_append, crc32_append, crcFold_cons, crcFold_cons] at heq
  have hsteps := crcFold_injective (crcFinish_injective heq)
  exact hxy (crcStep_byte_injective hsteps)

/-- Settles O8, by running the bit-serial step on the check bytes. -/
theorem crc32KnownValues : Obligations.Crc32KnownValues :=
  ⟨rfl, by decide +kernel⟩

/-! ### The commands (40_crc32.md R75 to R79) -/

/-- The shifts in a row are the shift iterated (40_crc32.md R71). -/
theorem crcShifts_eq_iterate (k : Nat) (c : BitVec 32) : crcShifts k c = crcShift^[k] c := by
  induction k generalizing c with
  | zero => rfl
  | succ k ih => exact ih (crcShift c)

/-- Settles O1: the command's own meaning, with the initial value written out. -/
theorem crcInitSetsRegister : Obligations.CrcInitSetsRegister :=
  fun _ => rfl

/-- Settles O2: the eight shifts of the step are the shift of R71 iterated. -/
theorem crcByteFoldsOneByte : Obligations.CrcByteFoldsOneByte := by
  intro b s
  have hstep : crcStep s.crc b = crcShift^[8] (s.crc ^^^ b.setWidth 32) := crcShifts_eq_iterate 8 _
  rw [exec, execCrcByte, hstep]
  rfl

/-- Settles O3: the command's own meaning, with the final XOR written out. -/
theorem crcReadGivesFinishedRegister : Obligations.CrcReadGivesFinishedRegister :=
  fun _ => rfl

/-- Settles O4: the command's own meaning, with the match flag written out as a decided equality. -/
theorem crcCheckReportsMatchOnly : Obligations.CrcCheckReportsMatchOnly :=
  fun _ _ => rfl

/-- Settles O6: the commands of `CRC32 B` with none after them. -/
theorem crc32PseudoCommandGivesCrc32 : Obligations.Crc32PseudoCommandGivesCrc32 := by
  intro bs s hw
  obtain ⟨o, ho, hrun⟩ := execAll_crc32 bs [] s hw
  rw [List.append_nil] at hrun
  refine ⟨_, hrun, List.getLast?_concat, rfl, ?_, rfl⟩
  rw [List.length_append, List.length_singleton, ho]

end Sys2Proof.Machine

/-! ## Unit HDR: the header codec and the frames a host builds with it (41_header_codec.md R90 to R97) -/

namespace Sys2Proof.Machine

/-! ### The two commands (41_header_codec.md R90, R91, R92, R94) -/

/-- The bytes of a word are its slices of eight bits, the highest slice first (00_scope.md R6). -/
theorem be_succ_toNat {w : Nat} (k : Nat) (x : BitVec w) :
    be (k + 1) x.toNat = x.extractLsb' (8 * k) 8 :: be k x.toNat := by
  have hpow : (256 : Nat) ^ k = 2 ^ (8 * k) := (Nat.pow_mul 2 8 k).symm
  rw [be, hpow, ← Nat.shiftRight_eq_div_pow]
  rfl

/-- The sixteen header bytes, written out as slices of the fields (41_header_codec.md R90). -/
theorem encodeHeader_eq_slices (h : Header) :
    encodeHeader h =
      [h.len.extractLsb' 24 8, h.len.extractLsb' 16 8, h.len.extractLsb' 8 8, h.len.extractLsb' 0 8,
       h.fid.extractLsb' 56 8, h.fid.extractLsb' 48 8, h.fid.extractLsb' 40 8, h.fid.extractLsb' 32 8,
       h.fid.extractLsb' 24 8, h.fid.extractLsb' 16 8, h.fid.extractLsb' 8 8, h.fid.extractLsb' 0 8,
       h.csum.extractLsb' 24 8, h.csum.extractLsb' 16 8, h.csum.extractLsb' 8 8, h.csum.extractLsb' 0 8] := by
  simp only [encodeHeader, be_succ_toNat]
  rfl

/-- `HDR_ENC` answers the encoded header (41_header_codec.md R90). -/
theorem exec_hdrEnc (len : BitVec 32) (fid : BitVec 64) (csum : BitVec 32) (s : State) :
    exec (.hdrEnc len fid csum) s =
      .next (s.respond statusOk (.hdr (encodeHeader { len := len, fid := fid, csum := csum }))) :=
  rfl

/-- Settles O15: both answers come from the header codec, whose two directions undo each other. -/
theorem headerEncodeDecodeInverse : Obligations.HeaderEncodeDecodeInverse := by
  refine ⟨fun len fid csum s => ?encodeThenDecode, fun bs s hlen => ?decodeThenEncode⟩
  case encodeThenDecode =>
    exact ⟨_, encodeHeader_length _, exec_hdrEnc len fid csum s,
      execHdrDec_of_decodeHeader_some (decodeHeader_encodeHeader _)⟩
  case decodeThenEncode =>
    have hd := decodeHeader_long hlen.ge
    refine ⟨_, execHdrDec_of_decodeHeader_some hd s, fun u => ?_⟩
    rw [exec_hdrEnc, encodeHeader_of_decodeHeader hlen hd]
    rfl

/-- Settles O12: the answer is the encoded header, byte by byte. -/
theorem hdrEncGivesSixteenBytes : Obligations.HdrEncGivesSixteenBytes := by
  intro len fid csum s
  rw [exec_hdrEnc, encodeHeader_eq_slices]
  rfl

/-- Settles O14: below 16 bytes nothing decodes, and from 16 bytes on the three slices are read. -/
theorem hdrDecReadsFields : Obligations.HdrDecReadsFields :=
  fun _ s => ⟨fun hshort => execHdrDec_of_decodeHeader_none (decodeHeader_short hshort) s,
    fun hlong => execHdrDec_of_decodeHeader_some (decodeHeader_long hlong) s⟩

/-! ### Frames the host builds (41_header_codec.md R95, R97) -/

/-- When the commands of `CRC32` end with the value `v`, `FRAME` ends with the answer of `HDR_ENC` to the length, the id
and `v`, and gives that header followed by the compressed bytes (41_header_codec.md R95). -/
theorem runFrame_of_execAll_crc32Commands {fid : BitVec 64} {raw compressed : List Byte} {s t : State} {st : BitVec 4}
    {v : BitVec 32} (hlen : compressed.length < 2 ^ 32) (hrun : execAll (crc32Commands raw) s = .next t)
    (hlast : t.lastResponse = some { status := st, results := .value v }) :
    let f : Frame :=
      { header := { len := BitVec.ofNat 32 compressed.length, fid := fid, csum := v }, payload := compressed }
    runFrame fid raw compressed s =
      .next (t.respond statusOk (.hdr (encodeHeader f.header)), some (frameBytes f)) := by
  intro f
  have henc : (t.respond statusOk (.hdr (encodeHeader f.header))).lastResponse =
      some { status := statusOk, results := .hdr (encodeHeader f.header) } := State.lastResponse_respond t _ _
  simp only [runFrame, if_neg (Nat.not_le.mpr hlen), hrun, andThen, hlast, exec_hdrEnc, henc, f, frameBytes]

/-- Settles O57: the commands of `CRC32` leave the checksum of the raw block as the last answer, and `HDR_ENC` adds only
an answer. -/
theorem framePseudoCommandBuildsFrame : Obligations.FramePseudoCommandBuildsFrame := by
  intro fid raw compressed s hw hlen
  obtain ⟨t, hrun, hlast, -, -, hframe⟩ := crc32PseudoCommandGivesCrc32 raw s hw
  refine ⟨_, runFrame_of_execAll_crc32Commands hlen hrun hlast, ?_⟩
  rw [hframe]
  rfl

/-- Settles O59: the counter is a 64-bit addition, and one past the maximum is `2^64`. -/
theorem frameIdWrapsToZero : Obligations.FrameIdWrapsToZero := by
  intro fid
  have hnext : (nextFrameId fid).toNat = (fid.toNat + 1) % 2 ^ 64 := BitVec.toNat_add fid 1
  refine ⟨hnext, fun hmax => BitVec.eq_of_toNat_eq ?_⟩
  rw [hnext, hmax]
  rfl

end Sys2Proof.Machine

/-! ## Unit RSM: its commands, a waiting fill, and the demultiplexer (42_reassembler.md R101 to R112) -/

namespace Sys2Proof.Machine

/-! ### `RSM_FILL` (42_reassembler.md R101, R102) -/

/-- A fill that lacks bytes on an open stream has no step. -/
theorem State.fillBlocked_of_starved {s : State} (hf : s.fault = 0) (hc : s.cursor < s.cap)
    (ha : s.srcQ.length < s.cap - s.cursor) (hopen : s.srcClosed = false) : s.fillBlocked = true :=
  (State.fillBlocked_iff s).mpr ⟨hf, hc.ne, ha, hopen⟩

/-- Settles O18: the reading branch, and the bytes it writes. -/
theorem fillReadsMissingBytes : Obligations.FillReadsMissingBytes :=
  fun _ hf hc ha => ⟨_, execRsmFill_reads hf hc ha, rfl, State.fill_bytes rfl rfl ha⟩

/-- Settles O19: the branch for `cursor = CAP`. -/
theorem fillOnFullBufferIsNoop : Obligations.FillOnFullBufferIsNoop :=
  fun _ hf hc => execRsmFill_full hf hc

/-- Settles O20: the free cursor is reduced to its range, and the free bytes stand in `[cursor, CAP)` only. -/
theorem fillShortReadLatches : Obligations.FillShortReadLatches :=
  fun _ hf hc ha hcl => ⟨_, execRsmFill_short hf hc ha hcl, rfl, Nat.le_of_lt_succ (Nat.mod_lt _ (Nat.succ_pos _)),
    State.shortRead_bytes rfl rfl⟩

/-- Settles O22: such a fill has no step, so it waits. -/
theorem fillWaitsForTheEnvironment : Obligations.FillWaitsForTheEnvironment :=
  fun _ hf hc ha hopen => execRsmFill_waits (State.fillBlocked_of_starved hf hc ha hopen)

/-! ### `RSM_HDR` and `RSM_TAKE` (42_reassembler.md R103 to R105) -/

/-- A slice of the values of `f` at `0 .. n-1` is the values at the slice's indices. -/
theorem slice_map_range (f : Nat → Byte) {n b : Nat} (hb : b ≤ n) (a : Nat) :
    slice ((List.range n).map f) a b = (List.range (b - a)).map fun i => f (a + i) := by
  apply List.ext_getElem
  · simp
    omega
  · intro i h1 h2
    simp [slice]

/-- Settles O23: the fields are the slices of the first 16 buffer bytes, and the two other branches stand as they are. -/
theorem hdrPeeksWithoutConsuming : Obligations.HdrPeeksWithoutConsuming := by
  refine fun s => ⟨fun hf hcap => ?_, execRsmHdr_small, execRsmHdr_latched⟩
  refine execRsmHdr_reads hf hcap ?_
  rw [decodeHeader_long (by simp), slice_map_range _ (by decide), slice_map_range _ (by decide),
    slice_map_range _ (by decide)]
  simp

/-- Settles O24: the taking branch and the byte each offset holds after it, and the two other branches. -/
theorem takeReturnsAndCompacts : Obligations.TakeReturnsAndCompacts := by
  refine fun n s => ⟨fun hf hn => ⟨_, execRsmTake_takes hf hn, rfl, fun a _ => ?_⟩, execRsmTake_overflow,
    execRsmTake_latched n⟩
  rw [Nat.add_comm n a]
  exact State.compact_bufByte s n a

/-- Settles O25: the operand is a natural number, and above `CAP` the take overflows. -/
theorem takeRejectsUnrepresentableFrame : Obligations.TakeRejectsUnrepresentableFrame := by
  intro len s hcap hf
  have hiff : s.cap < takeOperand len ↔ s.cap - 16 < len.toNat := by
    rw [takeOperand, hdrLen]
    omega
  exact ⟨rfl, hiff, fun hlong => execRsmTake_overflow hf (hiff.mpr hlong)⟩

/-! ### A waiting fill (42_reassembler.md R101) -/

/-- Commands alone hold no move of the environment. -/
theorem nextEnvMove_eq_none_of_commands {es : List Event} (h : ∀ e ∈ es, ∃ c, e = .command c) :
    nextEnvMove es = none := by
  induction es with
  | nil => rfl
  | cons e es ih =>
    obtain ⟨⟨c, rfl⟩, htail⟩ := List.forall_mem_cons.mp h
    rw [nextEnvMove, ih htail, Option.map_none]

/-- Commands alone hold no input that can happen while a fill waits (00_scope.md R7). -/
theorem nextWhileWaiting_eq_none_of_commands {es : List Event} (h : ∀ e ∈ es, ∃ c, e = .command c) :
    nextWhileWaiting es = none := by
  cases hn : nextWhileWaiting es with
  | none => rfl
  | some p =>
    rcases nextWhileWaiting_some hn with ⟨-, hes⟩ | ⟨m, -, hm⟩
    · obtain ⟨c, hc⟩ := h .reset (hes ▸ List.mem_cons_self)
      cases hc
    · rw [nextEnvMove_eq_none_of_commands h] at hm
      cases hm

/-- Settles O43: no command can happen while a fill is blocked. -/
theorem waitingFillHasNoTimeout : Obligations.WaitingFillHasNoTimeout := by
  intro s hw hf hc ha hopen hcmd
  rw [step_waiting_blocked hw (State.fillBlocked_of_starved hf hc ha hopen), nextWhileWaiting_eq_none_of_commands hcmd]

/-- While a fill is blocked an arrival at the head of the inputs happens (10_state.md R19). -/
theorem step_waiting_arrive {s : State} {bs : List Byte} {rest : List Event} (hw : s.waiting = true)
    (hb : s.fillBlocked = true) (hi : s.inbox = .env (.arrive bs) :: rest) :
    step s = .next { s with inbox := rest, srcQ := s.srcQ ++ bs } := by
  obtain ⟨-, -, -, hopen⟩ := (State.fillBlocked_iff s).mp hb
  rw [step_waiting_blocked hw hb, hi]
  simp [nextWhileWaiting, nextEnvMove, applyEvent, State.envStep, hopen]

/-- A waiting fill with enough bytes pending executes at the next step. -/
theorem step_waiting_enough {s : State} (hw : s.waiting = true) (ha : s.cap - s.cursor ≤ s.srcQ.length) :
    step s = exec .rsmFill s := by
  refine step_waiting_enabled hw (Bool.eq_false_iff.mpr fun hb => ?_)
  obtain ⟨-, -, hstarved, -⟩ := (State.fillBlocked_iff s).mp hb
  exact Nat.not_lt.mpr ha hstarved

/-- Settles O44: the first step takes the arrival, the second executes the fill. -/
theorem arrivalLetsWaitingFillComplete : Obligations.ArrivalLetsWaitingFillComplete := by
  intro bs rest s hw hf hc hstarved hopen hi henough
  have ha : s.cap - s.cursor ≤ (s.srcQ ++ bs).length := by rwa [List.length_append]
  have harrive := step_waiting_arrive hw (State.fillBlocked_of_starved hf hc hstarved hopen) hi
  obtain ⟨u, hfill, hu, hbytes, -⟩ := fillReadsMissingBytes { s with inbox := rest, srcQ := s.srcQ ++ bs } hf hc ha
  exact ⟨_, u, harrive, Eq.trans (step_waiting_enough hw ha) hfill, hu, hbytes⟩

/-! ### The take and the header read at stream positions (42_reassembler.md R106, R107, R111) -/

/-- Settles O48: the take leaves retained bytes, the fill makes a window of them, the header read peeks at its front. -/
theorem takeThenFillThenHeader : Obligations.TakeThenFillThenHeader := by
  intro stream p n s hcap hwin hn hlen
  obtain ⟨t, htake, hret, -, htcap, htout, -⟩ := State.windowFull_take hwin hn
  obtain ⟨u, hfill, huwin, hucap, -, -⟩ := State.retained_fill hret (by omega)
  obtain ⟨hd, hdec, hhdr⟩ := State.windowFull_hdr huwin (by omega)
  exact ⟨t, u, _, hd, htake, htout, hfill, huwin, hhdr, hdec, rfl⟩

/-- The take of `RSM_NEXT` on a window with a well-formed frame at its front delivers that frame and retains what follows
it (42_reassembler.md R107). -/
theorem nextTake_delivers_frame {stream rest : List Byte} {p : Nat} {s : State} {f : Frame}
    (hwin : s.windowFull stream p) (hf : frameWellFormed f = true) (hfit : frameLength f ≤ s.cap)
    (hfront : stream.drop p = frameBytes f ++ rest) :
    ∃ t, nextTake f.header s = .next (t, .frame (deliveredOf f)) ∧
      t.retained stream (p + frameLength f) ∧ t.cursor = s.cap - frameLength f ∧ t.cap = s.cap := by
  obtain ⟨t, htake, hret, hcur, hcap, hout, -⟩ := State.windowFull_take hwin hfit
  have hexec : exec (.rsmTake (takeOperand f.header.len)) s = .next t := htake
  have hlast : t.lastResponse = some { status := 0, results := .data (frameBytes f) } := by
    rw [State.lastResponse, hout, List.getLast?_concat, hfront, frameLength, take_frame f rest hf]
  refine ⟨t, ?_, hret, hcur, hcap⟩
  simp only [nextTake, hexec, andThen, hlast, slice_frame f hf, deliveredOf]

/-- `RSM_NEXT` goes on to the take when the fill answered 0 and the header read answered the fields
(42_reassembler.md R107). -/
theorem rsmNext_of_fill_of_hdr {s t u : State} {h : Header} (hfill : exec .rsmFill s = .next t)
    (hwait : t.waiting = false) (hok : t.lastResponse = some { status := 0, results := .none })
    (hhdr : exec .rsmHdr t = .next u) (hfields : u.lastResponse = some { status := 0, results := .fields h }) :
    rsmNext s = nextTake h u := by
  simp only [rsmNext, hfill, andThen, hwait, hok, hhdr, hfields]
  rfl

/-- `RSM_NEXT` with a well-formed frame at the position of the retained bytes, and a window of the stream from there on,
delivers that frame and retains what follows it (42_reassembler.md R109). -/
theorem rsmNext_delivers_frame {stream rest : List Byte} {p : Nat} {s : State} {f : Frame} (hret : s.retained stream p)
    (hlen : p + s.cap ≤ stream.length) (hf : frameWellFormed f = true) (hfit : frameLength f ≤ s.cap)
    (hfront : stream.drop p = frameBytes f ++ rest) :
    ∃ t, rsmNext s = .next (t, .frame (deliveredOf f)) ∧
      t.retained stream (p + frameLength f) ∧ t.cursor = s.cap - frameLength f ∧ t.cap = s.cap := by
  have hcap : 16 ≤ s.cap := Nat.le_trans (Nat.le_add_right 16 f.header.len.toNat) hfit
  obtain ⟨u, hfill, hwin, hucap, huout, -⟩ := State.retained_fill hret hlen
  have hok : u.lastResponse = some { status := 0, results := .none } := by
    rw [State.lastResponse, huout, List.getLast?_concat]
  obtain ⟨h, hdec, hhdr⟩ := State.windowFull_hdr hwin (hucap ▸ hcap)
  obtain rfl : f.header = h := by
    rw [hfront, take16_frameBytes, decodeHeader_encodeHeader] at hdec
    exact Option.some.inj hdec
  have hwait : u.waiting = false := by
    obtain ⟨-, hwait, -⟩ := hwin
    exact hwait
  rw [rsmNext_of_fill_of_hdr hfill hwait hok hhdr List.getLast?_concat, ← hucap]
  refine nextTake_delivers_frame ?_ hf ?_ hfront
  · exact hwin
  · exact hucap ▸ hfit

/-- Settles O52: the marker is a well-formed frame without a payload. -/
theorem silenceMarkerDelivered : Obligations.SilenceMarkerDelivered := by
  intro stream p fid csum s hcap hret hlen hmark
  have hfront : stream.drop p = frameBytes (silenceMarker fid csum) ++ (stream.drop p).drop 16 := by
    rw [← hmark, List.take_append_drop]
  have hsize : frameLength (silenceMarker fid csum) = 16 := rfl
  obtain ⟨t, hnext, htret, hcur, -⟩ := rsmNext_delivers_frame hret hlen rfl (hsize ▸ hcap) hfront
  exact ⟨t, hnext, hcur, htret⟩

/-! ### Frame after frame (42_reassembler.md R109) -/

/-- The next cycle of `RSM_NEXT` after one that delivered a frame. -/
theorem rsmNexts_succ_of_frame {k : Nat} {s t u : State} {d : Delivered} {ds : List Delivered}
    (hnext : rsmNext s = .next (t, .frame d)) (hrest : rsmNexts k t = some (u, ds)) :
    rsmNexts (k + 1) s = some (u, d :: ds) := by
  simp only [rsmNexts, hnext, hrest, Option.map_some]

/-- From any position of the stream where frames stand, `j + 1` cycles deliver the first `j + 1` of them, if a window can
be filled at the last one (42_reassembler.md R109). -/
theorem rsmNexts_deliver_frames {stream rest : List Byte} {fs : List Frame} {j p : Nat} {f : Frame} {s : State}
    (hret : s.retained stream p) (hfront : stream.drop p = streamOf fs ++ rest)
    (hfs : ∀ g ∈ fs, frameWellFormed g = true ∧ frameLength g ≤ s.cap) (hj : fs[j]? = some f)
    (hlen : p + (streamOf (fs.take j)).length + s.cap ≤ stream.length) :
    ∃ t, rsmNexts (j + 1) s = some (t, (fs.take (j + 1)).map deliveredOf) ∧
      t.cursor = s.cap - frameLength f ∧ t.retained stream (p + (streamOf (fs.take (j + 1))).length) := by
  induction fs generalizing j p s with
  | nil => cases hj
  | cons g fs ih =>
    obtain ⟨⟨hg, hgfit⟩, htail⟩ := List.forall_mem_cons.mp hfs
    have hglen := frameLength_eq g hg
    rw [streamOf, List.append_assoc] at hfront
    obtain ⟨t, hnext, htret, hcur, hcap⟩ := rsmNext_delivers_frame hret (by omega) hg hgfit hfront
    cases j with
    | zero =>
      obtain rfl : g = f := Option.some.inj hj
      refine ⟨t, rsmNexts_succ_of_frame hnext rfl, hcur, ?_⟩
      simpa [streamOf, hglen] using htret
    | succ j =>
      have htfront : stream.drop (p + frameLength g) = streamOf fs ++ rest := by
        rw [← List.drop_drop, hfront, List.drop_left' hglen]
      rw [List.take_succ_cons, streamOf, List.length_append, hglen] at hlen
      obtain ⟨u, hrun, hucur, huret⟩ := ih htret htfront (hcap ▸ htail) hj (by omega)
      refine ⟨u, rsmNexts_succ_of_frame hnext hrun, hcap ▸ hucur, ?_⟩
      rwa [List.take_succ_cons, streamOf, List.length_append, hglen, ← Nat.add_assoc]

/-- Settles O51: after a reset no byte is retained, so the frames stand at position 0 of what is pending. -/
theorem demuxDeliversFramesInOrder : Obligations.DemuxDeliversFramesInOrder := by
  intro fs rest j f s hcap hf hc hw hq hfs hj hlen
  have hret : s.retained s.srcQ 0 := by
    refine ⟨hf, hw, by omega, fun i hi => absurd hi (by omega), ?_⟩
    rw [hc, List.drop_zero]
  have hfit : ∀ g ∈ fs, frameWellFormed g = true ∧ frameLength g ≤ s.cap := fun g hg => by
    obtain ⟨hwf, hle⟩ := hfs g hg
    refine ⟨hwf, ?_⟩
    rw [frameLength, takeOperand, hdrLen]
    omega
  have hrun := rsmNexts_deliver_frames hret hq hfit hj (by omega)
  rwa [Nat.zero_add] at hrun

/-! ### The end of the stream (42_reassembler.md R110) -/

/-- `RSM_NEXT` waits when its fill does. -/
theorem rsmNext_of_fill_waits {s : State} (hb : s.fillBlocked = true) :
    rsmNext s = .next ({ s with waiting := true }, .waiting) := by
  have hfill : exec .rsmFill s = .next { s with waiting := true } := execRsmFill_waits hb
  simp only [rsmNext, hfill, andThen, if_pos]

/-- `RSM_NEXT` stops with `ShortRead` when its fill ends in it. -/
theorem rsmNext_of_fill_short {s t : State} (hfill : exec .rsmFill s = .next t) (hw : t.waiting = false)
    (hlast : t.lastResponse = some { status := 2, results := .none }) : rsmNext s = .next (t, .stopped 2) := by
  simp only [rsmNext, hfill, andThen, hw, hlast]
  rfl

/-- Settles O53: short of a window the buffer lacks bytes and the stream does not hold them, so the fill waits or is a
`ShortRead`. -/
theorem framesHeldBackAtStreamEnd : Obligations.FramesHeldBackAtStreamEnd := by
  rintro stream p s ⟨hf, -, -, -, hq⟩ hle hlt
  have hmissing : s.cursor < s.cap := by omega
  have hstarved : s.srcQ.length < s.cap - s.cursor := by
    rw [hq, List.length_drop]
    omega
  refine ⟨fun hopen => ?opened, fun hclosed => ?closed⟩
  case opened =>
    exact rsmNext_of_fill_waits (State.fillBlocked_of_starved hf hmissing hstarved hopen)
  case closed =>
    have hfill := execRsmFill_short hf hmissing hstarved hclosed
    exact ⟨_, rsmNext_of_fill_short hfill rfl List.getLast?_concat, rfl⟩

/-! ### The receive completion (42_reassembler.md R112) -/

/-- Settles O58: the commands of `CRC32` leave the register of the raw block, which the comparison reads. -/
theorem receiveCompletionReportsChecksum : Obligations.ReceiveCompletionReportsChecksum := by
  intro decompress previous zeroed raw d s hw hsil hraw
  have hcompletion : receiveCompletion decompress previous zeroed d =
      (crc32Commands raw ++ [.crcCheck d.header.csum], raw) := by
    simp [receiveCompletion, hsil, hraw]
  rw [hcompletion]
  obtain ⟨o, -, hrun⟩ := execAll_crc32 raw [.crcCheck d.header.csum] s hw
  exact ⟨rfl, _, hrun.trans (execAll_cons_next [] rfl hw), List.getLast?_concat, rfl⟩

end Sys2Proof.Machine

/-! ## Exceptions: when a fault is raised, reported and cleared (60_exceptions.md R120 to R130) -/

namespace Sys2Proof.Machine

/-! ### A latched fault (60_exceptions.md R124, R130) -/

/-- Settles O26: each of the three commands answers the latched fault, and a fill had not been waiting. -/
theorem latchedFaultAnswersRsmCommands : Obligations.LatchedFaultAnswersRsmCommands := by
  intro i s hi hf hw
  rcases isRsm_cases hi with rfl | rfl | ⟨n, rfl⟩
  · have hfill := execRsmFill_latched hf
    rwa [← hw] at hfill
  · exact execRsmHdr_latched hf
  · exact execRsmTake_latched n hf

/-- No command changes a latched fault (10_state.md R16). -/
theorem exec_fault_of_latched {i : Instr} {s t : State} (hf : s.fault ≠ 0) (h : exec i s = .next t) :
    t.fault = s.fault := by
  obtain ⟨-, hkeep, -⟩ := faultWrittenOnceByRsmOnly i s t h
  exact hkeep hf

/-- No command on the port changes a latched fault, its opcode assigned or reserved. -/
theorem issue_fault_of_latched {c : Command} {s t : State} (hf : s.fault ≠ 0) (h : issue c s = .next t) :
    t.fault = s.fault := by
  cases hd : decode c with
  | instr i =>
    rw [issue_of_decode_instr hd] at h
    exact exec_fault_of_latched hf h
  | reserved o =>
    rw [issue_of_decode_reserved hd] at h
    cases h
    rfl

/-- The environment does not write the latch (10_state.md R19, R20). -/
theorem State.envStep_fault {m : EnvMove} {s t : State} (h : s.envStep m = .next t) : t.fault = s.fault := by
  rcases State.envStep_next h with ⟨bs, -, -, rfl⟩ | ⟨-, rfl⟩ <;> rfl

/-- Settles O29, by the cases of a step: every case but the reset keeps a latched fault. -/
theorem onlyResetClearsFault : Obligations.OnlyResetClearsFault := by
  intro s t h hf hne
  rcases step_cases h with rfl | ⟨c, rest, -, -, hc⟩ | ⟨rest, -, hi, rfl⟩ | ⟨m, rest, -, hm⟩ | ⟨-, -, hfill⟩
  · exact absurd rfl hne
  · exact absurd (issue_fault_of_latched (s := { s with inbox := rest }) hf hc) hne
  · exact ⟨rfl, rfl, rest, hi⟩
  · exact absurd (State.envStep_fault hm) hne
  · exact absurd (exec_fault_of_latched hf hfill) hne

/-! ### The cause of `ShortRead` (60_exceptions.md R122) -/

/-- Settles O21: of the things a fill can do only the `ShortRead` writes the latch, and its conditions lead there. -/
theorem shortReadExactlyWhenStarvedAndClosed : Obligations.ShortReadExactlyWhenStarvedAndClosed := by
  intro s t hf _ h
  constructor
  case mp =>
    intro hshort
    have hkept : s.fault ≠ 2 := by rw [hf]; decide
    rcases execRsmFill_next h with ⟨-, rfl⟩ | ⟨hlatched, -⟩ | ⟨-, -, rfl⟩ | ⟨-, -, -, rfl⟩ |
      ⟨-, hmissing, hstarved, hclosed, -⟩
    · exact absurd hshort hkept
    · exact absurd hf hlatched
    · exact absurd hshort hkept
    · exact absurd hshort hkept
    · exact ⟨hmissing, hstarved, hclosed⟩
  case mpr =>
    rintro ⟨hmissing, hstarved, hclosed⟩
    cases h.symm.trans (execRsmFill_short hf hmissing hstarved hclosed)
    rfl

/-! ### The status a command can answer (60_exceptions.md R128) -/

/-- The status of a command's one response is the status of the response it appends. -/
theorem status_eq_of_outbox {o : List Response} {r r' : Response} (h : o ++ [r'] = o ++ [r]) :
    r.status = r'.status := by
  rw [List.singleton_inj.mp (List.append_cancel_left h)]

/-- While a fault is latched a command of unit RSM reports it (60_exceptions.md R124). -/
theorem exec_rsm_status_of_latched {i : Instr} (hi : isRsm i = true) {s t : State} {r : Response} (hf : s.fault ≠ 0)
    (h : exec i s = .next t) (hr : t.outbox = s.outbox ++ [r]) : r.status = statusOfFault s.fault := by
  obtain ⟨-, -, hanswer, -⟩ := faultWrittenOnceByRsmOnly i s t h
  rw [hanswer hf hi] at hr
  exact status_eq_of_outbox hr

/-- With nothing latched `RSM_FILL` reports `OK` or `ShortRead`. -/
theorem execRsmFill_status {s t : State} {r : Response} (hf : s.fault = 0) (h : execRsmFill s = .next t)
    (hr : t.outbox = s.outbox ++ [r]) : r.status = 0 ∨ r.status = 2 := by
  rcases execRsmFill_next h with ⟨-, rfl⟩ | ⟨hlatched, -⟩ | ⟨-, -, rfl⟩ | ⟨-, -, -, rfl⟩ | ⟨-, -, -, -, rfl⟩
  · exact absurd (List.self_eq_append_right.mp hr) (List.cons_ne_nil r [])
  · exact absurd hf hlatched
  · exact .inl (status_eq_of_outbox hr)
  · exact .inl (status_eq_of_outbox hr)
  · exact .inr (status_eq_of_outbox hr)

/-- With nothing latched and `CAP >= 16`, `RSM_HDR` reports `OK`. -/
theorem execRsmHdr_status {s t : State} {r : Response} (hcap : 16 ≤ s.cap) (hf : s.fault = 0)
    (h : execRsmHdr s = .next t) (hr : t.outbox = s.outbox ++ [r]) : r.status = 0 := by
  rcases execRsmHdr_next h with ⟨hlatched, -⟩ | ⟨-, hsmall, -⟩ | ⟨-, -, hd, -, rfl⟩
  · exact absurd hf hlatched
  · exact absurd hcap (Nat.not_le.mpr hsmall)
  · exact status_eq_of_outbox hr

/-- With nothing latched `RSM_TAKE` reports `OK` or `BufferOverflow`. -/
theorem execRsmTake_status {n : Nat} {s t : State} {r : Response} (hf : s.fault = 0) (h : execRsmTake n s = .next t)
    (hr : t.outbox = s.outbox ++ [r]) : r.status = 0 ∨ r.status = 3 := by
  rcases execRsmTake_next h with ⟨hlatched, -⟩ | ⟨-, -, rfl⟩ | ⟨-, -, rfl⟩
  · exact absurd hf hlatched
  · exact .inr (status_eq_of_outbox hr)
  · exact .inl (status_eq_of_outbox hr)

/-- `HDR_DEC` reports `OK` or `MalformedHeader`. -/
theorem execHdrDec_status {bs : List Byte} {s t : State} {r : Response} (h : execHdrDec bs s = .next t)
    (hr : t.outbox = s.outbox ++ [r]) : r.status = 0 ∨ r.status = 1 := by
  cases hd : decodeHeader bs with
  | none =>
    cases h.symm.trans (execHdrDec_of_decodeHeader_none hd s)
    exact .inr (status_eq_of_outbox hr)
  | some hdr =>
    cases h.symm.trans (execHdrDec_of_decodeHeader_some hd s)
    exact .inl (status_eq_of_outbox hr)

/-- Settles O28: the latched fault first, then the status of each command; the decoder names a reserved opcode. -/
theorem faultsEachCommandCanReport : Obligations.FaultsEachCommandCanReport := by
  refine ⟨fun i s t r hcap h hr => ⟨fun hi hf => exec_rsm_status_of_latched hi hf h hr, fun hunlatched => ?_⟩,
    fun c s hc => issue_of_decode_reserved (decode_eq_reserved_iff.mpr ⟨hc, rfl⟩) s⟩
  cases i with
  | crcInit | crcByte | crcRead | crcCheck | hdrEnc =>
    cases h
    exact status_eq_of_outbox hr
  | hdrDec => exact execHdrDec_status h hr
  | rsmFill => exact execRsmFill_status (hunlatched rfl) h hr
  | rsmHdr => exact execRsmHdr_status hcap (hunlatched rfl) h hr
  | rsmTake => exact execRsmTake_status (hunlatched rfl) h hr

end Sys2Proof.Machine

/-! ## Reset and hazards: resets, a command repeated without the other between, progress (70_reset_and_hazards.md R140 to
R155) -/

namespace Sys2Proof.Machine

/-! ### Reset (70_reset_and_hazards.md R140 to R142) -/

/-- Settles O39: `CAP` is the configured value, the buffer lists no cell, and nothing is latched, waits or was answered. -/
theorem resetStateHasInvariant : Obligations.ResetStateHasInvariant where
  cap_ge := Nat.le_add_left 16 Config.maxBlk
  cursor_le := Nat.zero_le _
  buf_ok := ⟨List.Pairwise.nil, nofun⟩
  fault_ne := by decide
  waiting_ok := nofun
  outbox_ok := nofun

/-- A reset at the head of the inputs happens when no fill waits, and while a waiting fill is blocked. -/
theorem step_reset {s : State} {rest : List Event} (hi : s.inbox = .reset :: rest)
    (h : s.waiting = false ∨ s.fillBlocked = true) : step s = .next (State.resetBlock { s with inbox := rest }) := by
  cases hw : s.waiting with
  | false => exact step_idle hw hi
  | true =>
    have hb : s.fillBlocked = true := h.resolve_left (by simp [hw])
    rw [step_waiting_blocked hw hb, hi, nextWhileWaiting]
    rfl

/-- Settles O41: the step is the reset of the block with the input taken. -/
theorem resetEventEffect : Obligations.ResetEventEffect :=
  fun _ _ hi h => ⟨_, step_reset hi h, rfl⟩

/-! ### Fill after fill, take after take (70_reset_and_hazards.md R147, R148) -/

/-- Settles O54: the first fill leaves the cursor at 0, so the second one reads `CAP` bytes and writes them from offset 0. -/
theorem fillAfterFillLosesTheWindow : Obligations.FillAfterFillLosesTheWindow := by
  intro s hf hc ha
  obtain ⟨t, hfill, ht, -⟩ := fillReadsMissingBytes s hf hc (by omega)
  have hcap : t.cap = s.cap := by rw [ht]
  have hcur : t.cursor = 0 := by rw [ht]
  have hfault : t.fault = 0 := by rw [ht]; exact hf
  have hq : t.srcQ = s.srcQ.drop (s.cap - s.cursor) := by rw [ht]
  have hpending : t.cap - t.cursor ≤ t.srcQ.length := by
    rw [hq, List.length_drop]
    omega
  obtain ⟨u, hfill', hu, hbytes, -⟩ := fillReadsMissingBytes t hfault (by omega) hpending
  refine ⟨t, u, hfill, hfill', by rw [hu]; exact hfault, by rw [hu], ?_, fun i hi => ?_⟩
  · rw [hu, hq, List.drop_drop, hcap, hcur, Nat.sub_zero]
  · have hbyte := hbytes i (by omega)
    rwa [hq, List.getElem?_drop, hcur, Nat.zero_add] at hbyte

/-- Settles O55: after the first take offset `a` holds old byte `n1 + a`, and the second take reads and moves from there. -/
theorem takeAfterTakeReturnsOldBytesAndSetsCursor : Obligations.TakeAfterTakeReturnsOldBytesAndSetsCursor := by
  intro n1 n2 s hf hn1 hn2
  obtain ⟨htakes, -, -⟩ := takeReturnsAndCompacts n1 s
  obtain ⟨t, htake, ht, hold⟩ := htakes hf hn1
  have hcap : t.cap = s.cap := by rw [ht]
  have hfault : t.fault = 0 := by rw [ht]; exact hf
  obtain ⟨htakes', -, -⟩ := takeReturnsAndCompacts n2 t
  obtain ⟨u, htake', hu, hmoved⟩ := htakes' hfault (hcap ▸ hn2)
  refine ⟨t, u, (List.range n2).map t.bufByte, htake, htake', by rw [hu], by simp, fun i hi => ?_, ?_, fun i hi => ?_⟩
  · rw [← hold i (by omega)]
    simp [show i < n2 by omega]
  · rw [hu, hcap]
  · rw [hmoved i (by omega), hold (n2 + i) (by omega), Nat.add_assoc]

/-! ### Every command completes, or is a fill that waits (70_reset_and_hazards.md R155) -/

/-- For a cursor in its range a fill has no step exactly when nothing is latched, bytes are missing, too few are pending
and the stream is open. -/
theorem State.fillBlocked_iff_starved {s : State} (hc : s.cursor ≤ s.cap) :
    s.fillBlocked = true ↔
      s.fault = 0 ∧ s.cursor < s.cap ∧ s.srcQ.length < s.cap - s.cursor ∧ s.srcClosed = false := by
  rw [State.fillBlocked_iff, hc.lt_iff_ne]
  rfl

/-- Every command but `RSM_FILL` completes with one response, in every state (30_encoding.md R60). -/
theorem exec_responds_of_ne_rsmFill {i : Instr} (hi : i ≠ .rsmFill) (s : State) :
    ∃ t, exec i s = .next t ∧ ∃ r : Response, t.outbox = s.outbox ++ [r] := by
  cases i with
  | crcInit | crcByte | crcRead | crcCheck | hdrEnc => exact ⟨_, rfl, _, rfl⟩
  | hdrDec bs =>
    obtain ⟨r, hr⟩ := hdrCommandsArePure (.hdrDec bs) rfl rfl
    exact ⟨_, hr s, r, rfl⟩
  | rsmFill => exact absurd rfl hi
  | rsmHdr =>
    obtain ⟨hreads, hsmall, hlatched⟩ := hdrPeeksWithoutConsuming s
    by_cases hf : s.fault = 0
    · rcases Nat.lt_or_ge s.cap 16 with hlt | hge
      · exact ⟨_, hsmall hf hlt, _, rfl⟩
      · exact ⟨_, hreads hf hge, _, rfl⟩
    · exact ⟨_, hlatched hf, _, rfl⟩
  | rsmTake n =>
    by_cases hf : s.fault = 0
    · rcases Nat.lt_or_ge s.cap n with hlt | hge
      · exact ⟨_, execRsmTake_overflow hf hlt, _, rfl⟩
      · exact ⟨_, execRsmTake_takes hf hge, _, rfl⟩
    · exact ⟨_, execRsmTake_latched n hf, _, rfl⟩

/-- A fill that is not blocked completes with one response, for a cursor in its range (42_reassembler.md R101). -/
theorem execRsmFill_responds {s : State} (hc : s.cursor ≤ s.cap) (hb : s.fillBlocked = false) :
    ∃ t, execRsmFill s = .next t ∧ ∃ r : Response, t.outbox = s.outbox ++ [r] := by
  rcases execRsmFill_cases s hc with hlatched | ⟨hf, hfull⟩ | ⟨hf, hmissing, henough⟩ |
    ⟨hf, hmissing, hstarved, hclosed⟩ | hblocked
  · exact ⟨_, execRsmFill_latched hlatched, _, rfl⟩
  · exact ⟨_, execRsmFill_full hf hfull, _, rfl⟩
  · exact ⟨_, execRsmFill_reads hf hmissing henough, _, rfl⟩
  · exact ⟨_, execRsmFill_short hf hmissing hstarved hclosed, _, rfl⟩
  · exact absurd (hb.symm.trans hblocked) Bool.false_ne_true

/-- Settles O33: a fill waits if it is blocked and responds if not, and every other command responds. -/
theorem everyCommandCompletesOrFillWaits : Obligations.EveryCommandCompletesOrFillWaits := by
  intro i s hc
  rw [← State.fillBlocked_iff_starved hc]
  by_cases hi : i = .rsmFill
  · subst hi
    cases hb : s.fillBlocked with
    | true =>
      obtain ⟨hf, hmissing, hstarved, hopen⟩ := (State.fillBlocked_iff_starved hc).mp hb
      exact ⟨_, execRsmFill_waits hb, .inl ⟨rfl, hf, hmissing, hstarved, hopen, rfl⟩⟩
    | false =>
      obtain ⟨t, ht, hr⟩ := execRsmFill_responds hc hb
      exact ⟨t, ht, .inr ⟨by simp, hr⟩⟩
  · obtain ⟨t, ht, hr⟩ := exec_responds_of_ne_rsmFill hi s
    exact ⟨t, ht, .inr ⟨fun ⟨hfill, _⟩ => hi hfill, hr⟩⟩

end Sys2Proof.Machine
